-- ==== Sys2Proof/Word.lean ====
section
/-! DEFINITION. The value types of the block (spec R11, 92 D3): u8, u32, s32 and the stereo pair. -/

namespace Sys2Proof

/-- A u8 value: an FM register address, an FM register value, one byte of a persisted state. -/
abbrev Byte := BitVec 8

/-- A u32 value, read with `toNat`: a command word, a cycle count, a timestamp, a sample count. -/
abbrev Word := BitVec 32

/-- An s32 value, read with `toInt`: one channel of a sample, a carry, a delta, a percentage. -/
abbrev S32 := BitVec 32

/-- One stereo pair `(l, r)` of the FM Sample Buffer (R37): the left sample precedes the right one. -/
structure Pair where
  l : S32
  r : S32
  deriving DecidableEq, Repr, Inhabited

end Sys2Proof
end

