-- ==== Sys2Proof/Config.lean ====
section
/-! DEFINITION. The names the configuration is written in (hardware class, FM variant, clock ratio,
lifecycle phase), the configuration inputs `CFG.*` (R21), the build parameters of R9, and the free
values: constants without a body, of which nothing can be proved but that they have the type stated. -/

namespace Sys2Proof

/-- `CFG.HWC`: the console hardware class, one of three families (R21, R22). -/
inductive HwClass where
  | hwA
  | hwB
  | hwC
  deriving DecidableEq, Repr, Inhabited

/-- `S.VAR`: the selected FM variant, or NONE before any SELECT (R29, R30). -/
inductive Variant where
  | noVariant
  | hp
  | std
  | simplified
  deriving DecidableEq, Repr, Inhabited

/-- `S.RATIO`: one of {42, 1008, 1080} master cycles per FM sample (R9, R29, R31). -/
inductive Ratio where
  | c42
  | c1008
  | c1080
  deriving DecidableEq, Repr, Inhabited

/-- `S.PHASE`: the lifecycle phase (R32). -/
inductive Phase where
  | off
  | selected
  | running
  deriving DecidableEq, Repr, Inhabited

/-- The configuration inputs `CFG.*`, read-only to the block and owned by external configuration (R21).
The host changes them between commands by a `HostItem.config` item of the inbox (R28, R166). -/
structure MixConfig where
  /-- `CFG.HWC`, read by SELECT. -/
  hwc : HwClass
  /-- `CFG.PREF`, the FM backend preference flag, read by SELECT (R23). -/
  pref : Bool
  /-- `CFG.DAC`, u8 and opaque, read by SELECT (R24). -/
  dac : Byte
  /-- `CFG.FMPRE`, s32, the FM amplification percent, read by MIX (R25). -/
  fmpre : S32
  /-- `CFG.PSGPRE`, s32 and opaque, read by RESET (R26). -/
  psgpre : S32
  /-- `CFG.HQ`: true band-limited, false linear, read by MIX (R27). -/
  hq : Bool
  deriving DecidableEq, Repr, Inhabited

/-- The parameters of R9 that are OPEN: fixed for one build of the block, never written by a step.
They stand in `State`, so a statement about every state is a statement about every build. -/
structure Params where
  /-- `DUAL_FM`: both primary-family FM engines are built in. -/
  dualFm : Bool
  /-- `PSG_MODE(HW_A)`, an opaque value handed to `PSG.init` (92 D7). -/
  psgModeA : Nat
  /-- `PSG_MODE(HW_B)`. -/
  psgModeB : Nat
  /-- `PSG_MODE(HW_C)`. -/
  psgModeC : Nat
  /-- `PSG_CHMASK`, 8 bits. -/
  psgChmask : Byte
  /-- `PSG_VOLMASK`, 8 bits. -/
  psgVolmask : Byte
  /-- `BUF_CAP`, the capacity of the FM Sample Buffer in stereo pairs; R9 asks for at least 1. -/
  bufCap : Nat
  /-- `FM_LEN(HP)`, bytes. -/
  fmLenHp : Nat
  /-- `FM_LEN(STD)`, bytes. -/
  fmLenStd : Nat
  /-- `FM_LEN(SIMP)`, bytes. -/
  fmLenSimp : Nat
  /-- `PSG_LEN`, bytes. -/
  psgLen : Nat
  deriving DecidableEq, Repr, Inhabited

namespace Config

/-! ### Build parameters of the reset state for which R9 gives no default (log entry 3) -/

/-- `PSG_MODE(hwc)` of the reset state's build. -/
opaque psgMode : HwClass → Nat

/-- `BUF_CAP − 1` of the reset state's build; the capacity is one more, so at least 1 (R9). -/
opaque bufCapLessOne : Nat

/-- `FM_LEN(v)` of the reset state's build. -/
opaque fmLen : Variant → Nat

/-- `PSG_LEN` of the reset state's build. -/
opaque psgLen : Nat

/-! ### The collaborators' answers once the scripted ones are used up (R44; log entry 5)

Each takes the draw counter `State.draws`, so that every answer is a fresh one. -/

/-- One stereo pair of an answer of `FM.generate`. -/
opaque fmPair : Nat → Pair

/-- The answer of `FM.read(a)`. -/
opaque fmRead : Byte → Nat → Byte

/-- The answer of `FM.saveState()`, of any length. -/
opaque fmBlob : Nat → List Byte

/-- The answer of `PSG.saveState()`, of any length. -/
opaque psgBlob : Nat → List Byte

/-- The answer of `RS.samplesAvailable()`. -/
opaque rsCount : Nat → Word

/-! ### Values the spec leaves UNSPECIFIED (R29, R37, R156; log entries 6 and 7) -/

/-- What a cell of the FM Sample Buffer holds that nothing has written since power-on (R29, U17, U18). -/
opaque unwrittenPair : Nat → Pair

/-- A register value after a fault raised during execution (R156, U19), by draw number. -/
opaque freeVariant : Nat → Variant

/-- As `freeVariant`, for `S.RATIO`. -/
opaque freeRatio : Nat → Ratio

/-- As `freeVariant`, for `S.PHASE`. -/
opaque freePhase : Nat → Phase

/-- As `freeVariant`, for the 32-bit registers. -/
opaque freeWord : Nat → BitVec 32

/-- As `freeVariant`, for `S.BLEN` (reduced to 0 .. BUF_CAP where it is used). -/
opaque freeNat : Nat → Nat

/-- As `freeVariant`, for the contents of `S.BUF` (cut to BUF_CAP pairs where it is used). -/
opaque freePairs : Nat → List Pair

end Config

end Sys2Proof
end

