-- ==== Sys2Proof/Syntax.lean ====
section
/-! DEFINITION. The commands of the block (R69 to R74), one constructor for each row of
spec/opcode_table.json, what the host hands to the block, and the assembler's lines (R78, R79). -/

namespace Sys2Proof

/-- The eight commands (R71), each with its operands as R73 assembles them: `cyc` is W1[31:0], `a` is
W0[15:8], `d` is W0[23:16], `b` is the byte string handed over with LOAD. -/
inductive Instr where
  | select
  | reset
  | advance (cyc : Word)
  | fmw (cyc : Word) (a d : Byte)
  | fmr (cyc : Word) (a : Byte)
  | mix (cyc : Word)
  | save
  | load (b : List Byte)
  deriving DecidableEq, Repr, Inhabited

/-- One thing the host hands to the block, in the order it hands them over (R69, R72, R166): a 32-bit word
(a command word or an operand word), a byte string (LOAD's operand), or a new setting of the configuration
inputs, which the host may change between commands (R28). -/
inductive HostItem where
  | word (w : Word)
  | bytes (b : List Byte)
  | config (c : MixConfig)
  deriving DecidableEq, Repr, Inhabited

/-- One line of the assembler (R78) or one pseudo-command (R79). Operands are the numbers as written, so a
line can be out of range; LOAD names a byte string the host supplies. -/
inductive Asm where
  | select
  | reset
  | advance (cyc : Nat)
  | fmw (cyc a d : Nat)
  | fmr (cyc a : Nat)
  | mix (cyc : Nat)
  | save
  | load (blob : List Char)
  | init
  | sync (cyc : Nat)
  | hardreset
  deriving DecidableEq, Repr

end Sys2Proof
end

