-- ==== Sys2Proof/WellFormed.lean ====
section
/-! DEFINITION. Which assembler lines are well formed (R78). A decoded command `Instr` needs no check of its
own: the types of its operands are exactly the widths R73 gives them, and LOAD's byte string may have any
length (R72), so every `Instr` is well formed. -/

namespace Sys2Proof

/-- `<cyc>` must lie in 0 .. 2^32−1 (R78). -/
def cycInRange (cyc : Nat) : Bool := cyc < 2 ^ 32

/-- `<a>` and `<d>` must lie in 0 .. 255 (R78). -/
def byteInRange (v : Nat) : Bool := v < 2 ^ 8

/-- The check an assembler makes of a line: it refuses every operand out of range (R78). -/
def Asm.wellFormed : Asm → Bool
  | .select => true
  | .reset => true
  | .advance cyc => cycInRange cyc
  | .fmw cyc a d => cycInRange cyc && byteInRange a && byteInRange d
  | .fmr cyc a => cycInRange cyc && byteInRange a
  | .mix cyc => cycInRange cyc
  | .save => true
  | .load _ => true
  | .init => true
  | .sync cyc => cycInRange cyc
  | .hardreset => true

end Sys2Proof
end

