-- ==== Sys2Proof/Decode.lean ====
section
/-! DEFINITION. The decoder, total on everything the host can hand over and rejecting by name, and after it
the encoder, both from the encoding tables of 30_encoding.md (R69 to R77). -/

namespace Sys2Proof

/-! ### Fields of the command word (R70) -/

/-- W0[3:0], the operation code. -/
def opField (w0 : Word) : BitVec 4 := w0.extractLsb' 0 4

/-- W0[7:4], RSV0, reserved, must be 0. -/
def rsv0Field (w0 : Word) : BitVec 4 := w0.extractLsb' 4 4

/-- W0[15:8], A, the FM register address. -/
def aField (w0 : Word) : Byte := w0.extractLsb' 8 8

/-- W0[23:16], D, the FM register data. -/
def dField (w0 : Word) : Byte := w0.extractLsb' 16 8

/-- W0[31:24], RSV1, reserved, must be 0. -/
def rsv1Field (w0 : Word) : Byte := w0.extractLsb' 24 8

/-! ### The decoder -/

/-- Why a command word is illegal: the conditions of R75, each under its own name. -/
inductive Illegal where
  /-- OP is 0x0 or one of 0x9 .. 0xF. -/
  | reservedOp
  /-- RSV0 is not 0. -/
  | rsv0NotZero
  /-- RSV1 is not 0. -/
  | rsv1NotZero
  /-- A is not 0 and OP is neither FMW nor FMR. -/
  | addressNotZero
  /-- D is not 0 and OP is not FMW. -/
  | dataNotZero
  deriving DecidableEq, Repr

/-- What follows a command word, told from OP alone (R72). -/
inductive OperandKind where
  | nothing
  | word
  | bytes
  deriving DecidableEq, Repr

/-- The length rule (R72): OP 3, 4, 5 and 6 are followed by one operand word, LOAD (8) by its byte string,
every other OP, reserved ones included, by nothing. -/
def operandKind (op : BitVec 4) : OperandKind :=
  if op = 3 ∨ op = 4 ∨ op = 5 ∨ op = 6 then .word
  else if op = 8 then .bytes
  else .nothing

/-- A command that has no D field: D must be 0 (R75). -/
def withoutData (w0 : Word) (i : Instr) : Except Illegal Instr :=
  if dField w0 = 0 then .ok i else .error .dataNotZero

/-- A command that has neither an A nor a D field: both must be 0 (R75). -/
def withoutFields (w0 : Word) (i : Instr) : Except Illegal Instr :=
  if aField w0 = 0 then withoutData w0 i else .error .addressNotZero

/-- Decode command word `w0` with operand word `w1` and byte string `b` (R71, R73, R75). Operands the command
does not have are not looked at. -/
def decodeWord (w0 w1 : Word) (b : List Byte) : Except Illegal Instr :=
  if rsv0Field w0 ≠ 0 then .error .rsv0NotZero
  else if rsv1Field w0 ≠ 0 then .error .rsv1NotZero
  else
    match (opField w0).toNat with
    | 1 => withoutFields w0 .select
    | 2 => withoutFields w0 .reset
    | 3 => withoutFields w0 (.advance w1)
    | 4 => .ok (.fmw w1 (aField w0) (dField w0))
    | 5 => withoutData w0 (.fmr w1 (aField w0))
    | 6 => withoutFields w0 (.mix w1)
    | 7 => withoutFields w0 .save
    | 8 => withoutFields w0 (.load b)
    | _ => .error .reservedOp

/-- What stands first among the things the host has handed over, with what is left after it. -/
inductive Decoded where
  /-- Nothing has been handed over. -/
  | idle
  /-- A new setting of the configuration inputs. -/
  | config (c : MixConfig) (rest : List HostItem)
  /-- A legal command with its operands. -/
  | command (i : Instr) (rest : List HostItem)
  /-- An illegal command word, its operand consumed by the length rule (R72, R75, R80). -/
  | illegal (why : Illegal) (rest : List HostItem)
  /-- A command word whose operand the host did not hand over with it. -/
  | operandMissing
  /-- A byte string that no LOAD word comes before. -/
  | strayBytes
  deriving DecidableEq, Repr

/-- Name the outcome of `decodeWord`. -/
def decodedAs (d : Except Illegal Instr) (rest : List HostItem) : Decoded :=
  match d with
  | .ok i => .command i rest
  | .error why => .illegal why rest

/-- Decode a command word, its operand taken from what follows it by the length rule (R72). -/
def decodeCommand (w0 : Word) (rest : List HostItem) : Decoded :=
  match operandKind (opField w0), rest with
  | .nothing, rest => decodedAs (decodeWord w0 0 []) rest
  | .word, .word w1 :: rest => decodedAs (decodeWord w0 w1 []) rest
  | .word, _ => .operandMissing
  | .bytes, .bytes b :: rest => decodedAs (decodeWord w0 0 b) rest
  | .bytes, _ => .operandMissing

/-- The decoder, total on whatever the host has handed over. -/
def decode (items : List HostItem) : Decoded :=
  match items with
  | [] => .idle
  | .config c :: rest => .config c rest
  | .bytes _ :: _ => .strayBytes
  | .word w0 :: rest => decodeCommand w0 rest

/-! ### The encoder -/

/-- The command word with fields D, A and OP, the reserved fields 0 (R70). -/
def packWord (d a : Byte) (op : BitVec 4) : Word := 0#8 ++ d ++ a ++ 0#4 ++ op

/-- The operation code of a command (R71). -/
def Instr.opcode : Instr → BitVec 4
  | .select => 1
  | .reset => 2
  | .advance _ => 3
  | .fmw _ _ _ => 4
  | .fmr _ _ => 5
  | .mix _ => 6
  | .save => 7
  | .load _ => 8

/-- The command word of a command (R77, R100, R101). -/
def Instr.commandWord : Instr → Word
  | .select => packWord 0 0 1
  | .reset => packWord 0 0 2
  | .advance _ => packWord 0 0 3
  | .fmw _ a d => packWord d a 4
  | .fmr _ a => packWord 0 a 5
  | .mix _ => packWord 0 0 6
  | .save => packWord 0 0 7
  | .load _ => packWord 0 0 8

/-- What the host hands over after the command word (R69, R72). -/
def Instr.operandItems : Instr → List HostItem
  | .select => []
  | .reset => []
  | .advance cyc => [.word cyc]
  | .fmw cyc _ _ => [.word cyc]
  | .fmr cyc _ => [.word cyc]
  | .mix cyc => [.word cyc]
  | .save => []
  | .load b => [.bytes b]

/-- Everything the host hands over for one command (R69). -/
def encode (i : Instr) : List HostItem := .word i.commandWord :: i.operandItems

/-! ### The opcode map (R77) -/

/-- One row of the opcode table: a command word is of this row when `w0 &&& mask = pattern`. -/
structure OpcodeRow where
  mnemonic : String
  pattern : Word
  mask : Word
  deriving DecidableEq, Repr

/-- The table of R77. -/
def opcodeRows : List OpcodeRow :=
  [ ⟨"SELECT", 0x00000001, 0xFFFFFFFF⟩,
    ⟨"RESET", 0x00000002, 0xFFFFFFFF⟩,
    ⟨"ADVANCE", 0x00000003, 0xFFFFFFFF⟩,
    ⟨"FMW", 0x00000004, 0xFF0000FF⟩,
    ⟨"FMR", 0x00000005, 0xFFFF00FF⟩,
    ⟨"MIX", 0x00000006, 0xFFFFFFFF⟩,
    ⟨"SAVE", 0x00000007, 0xFFFFFFFF⟩,
    ⟨"LOAD", 0x00000008, 0xFFFFFFFF⟩ ]

/-- `W0 AND mask = match` (R76). -/
def OpcodeRow.matchesWord (r : OpcodeRow) (w0 : Word) : Bool := w0 &&& r.mask = r.pattern

/-- The mnemonic of a command (R71). -/
def Instr.mnemonic : Instr → String
  | .select => "SELECT"
  | .reset => "RESET"
  | .advance _ => "ADVANCE"
  | .fmw _ _ _ => "FMW"
  | .fmr _ _ => "FMR"
  | .mix _ => "MIX"
  | .save => "SAVE"
  | .load _ => "LOAD"

/-! ### Words as numbers, as spec/opcode_table.json numbers their bits -/

/-- What the host hands over for the command whose bits are `w`: W0 is bits 31..0, an operand word is bits
63..32, every bit at or above `nbits` is 0. LOAD's byte string has no bits in the table: it is empty. -/
def itemsOfBits (nbits w : Nat) : List HostItem :=
  let v := w % 2 ^ nbits
  let w0 : Word := BitVec.ofNat 32 v
  match operandKind (opField w0) with
  | .nothing => [.word w0]
  | .word => [.word w0, .word (BitVec.ofNat 32 (v / 2 ^ 32))]
  | .bytes => [.word w0, .bytes []]

/-- The command the decoder reads from an opcode-table word. -/
def decodeTableWord (nbits w : Nat) : Option Instr :=
  match decode (itemsOfBits nbits w) with
  | .command i _ => some i
  | _ => none

end Sys2Proof
end

