-- ==== Sys2Proof/Machine/State.lean ====
section
/-! DEFINITION. The state of the block as plain data: every register of R29, the configuration inputs of R21,
the build parameters of R9, and what stands around the block in a model: what the host has handed over, the
collaborators' answers (R44), and the observation (R51). Its reset value, and the reasons a step can stop. -/

namespace Sys2Proof.Machine

/-- The usage-fault causes (R142). `Cause.code` (Flags.lean) gives each its code. -/
inductive Cause where
  | cmdIllegal
  | notReady
  | reselect
  | stampOrder
  | readUnsupported
  | frameBaseline
  | midFrame
  | bufferOverflow
  | counterOverflow
  | arithOverflow
  | blobFormat
  deriving DecidableEq, Repr, Inhabited

/-- One event of the trace (R51): a call to a collaborator with its arguments and its answer (R40 to R42), or
the event `FAULT(CODE)` of fault entry (R155). -/
inductive Event where
  /-- `FM.bind(v, dac)`; no DAC argument for HP and SIMP (92 D8). -/
  | fmBind (v : Variant) (dac : Option Byte)
  /-- `FM.reset()`. -/
  | fmReset
  /-- `FM.generate(n) -> pairs`. -/
  | fmGenerate (n : Nat) (answer : List Pair)
  /-- `FM.write(a, d)`. -/
  | fmWrite (a d : Byte)
  /-- `FM.read(a) -> v`. -/
  | fmRead (a : Byte) (answer : Byte)
  /-- `FM.saveState() -> bytes`. -/
  | fmSaveState (answer : List Byte)
  /-- `FM.loadState(bytes)`. -/
  | fmLoadState (blob : List Byte)
  /-- `PSG.init(mode)`. -/
  | psgInit (mode : Nat)
  /-- `PSG.reset()`. -/
  | psgReset
  /-- `PSG.configure(channelMask, preampPercent, volumeMask)`. -/
  | psgConfigure (chmask : Byte) (preamp : S32) (volmask : Byte)
  /-- `PSG.endFrame(cycles)`. -/
  | psgEndFrame (cycles : Word)
  /-- `PSG.saveState() -> bytes`. -/
  | psgSaveState (answer : List Byte)
  /-- `PSG.loadState(bytes)`. -/
  | psgLoadState (blob : List Byte)
  /-- `RS.addDelta(timestamp, leftDelta, rightDelta)`, band-limited. -/
  | rsAddDelta (t : Word) (dl dr : S32)
  /-- `RS.addDeltaFast(timestamp, leftDelta, rightDelta)`, linear. -/
  | rsAddDeltaFast (t : Word) (dl dr : S32)
  /-- `RS.endFrame(cycles)`. -/
  | rsEndFrame (cycles : Word)
  /-- `RS.samplesAvailable() -> count`. -/
  | rsSamplesAvailable (answer : Word)
  /-- `FAULT(CODE)`. -/
  | fault (c : Cause)
  deriving DecidableEq, Repr, Inhabited

/-- A value handed back to the host when a command completes (R69). -/
inductive HostResult where
  /-- FMR's u8. -/
  | value (v : Byte)
  /-- MIX's u32 count. -/
  | count (n : Word)
  /-- SAVE's byte string. -/
  | bytes (b : List Byte)
  deriving DecidableEq, Repr, Inhabited

/-- The answers the collaborators will give (R44), by kind, the next one first. When a list is used up the
answers are free values of Config, drawn by the counter `State.draws` (log entry 5). -/
structure Answers where
  /-- Stereo pairs of `FM.generate`. -/
  pairs : List Pair
  /-- Answers of `FM.read`. -/
  reads : List Byte
  /-- Answers of `FM.saveState`. -/
  fmBlobs : List (List Byte)
  /-- Answers of `PSG.saveState`. -/
  psgBlobs : List (List Byte)
  /-- Answers of `RS.samplesAvailable`. -/
  counts : List Word
  deriving DecidableEq, Repr, Inhabited

/-- The machine's state. -/
structure State where
  /-- The OPEN parameters of R9; no step writes them. -/
  params : Params
  /-- The configuration inputs `CFG.*` (R21); only the host changes them. -/
  cfg : MixConfig
  /-- `S.VAR` (R30). -/
  var : Variant
  /-- `S.RATIO` (R31). -/
  ratio : Ratio
  /-- `S.PT`, produced-through, u32 (R33). -/
  pt : Word
  /-- `S.FS`, frame-start, the residual, u32 (R34). -/
  fs : Word
  /-- `S.CL`, the carry of the left channel, s32 (R35). -/
  cl : S32
  /-- `S.CR`, the carry of the right channel, s32 (R35). -/
  cr : S32
  /-- `S.BLEN`, the write position of the buffer, in pairs (R29, R37). -/
  blen : Nat
  /-- `S.BUF` (R37): the cells written since power-on, from index 0; later cells have never been written. -/
  buf : List Pair
  /-- `S.PHASE` (R32). -/
  phase : Phase
  /-- `S.LAST`, the last timestamp presented this frame, u32 (R38). -/
  last : Word
  /-- `S.FAULT`, 1 bit, sticky (R39). -/
  fault : Bool
  /-- `S.FCAUSE`, 4 bits (R39, R142). -/
  fcause : BitVec 4
  /-- What the host has handed over and the block has not yet taken, oldest first (R69). -/
  inbox : List HostItem
  /-- The collaborators' scripted answers (R44). -/
  answers : Answers
  /-- How many free values have been drawn. -/
  draws : Nat
  /-- The trace of collaborator calls and fault events, oldest first (R51). -/
  trace : List Event
  /-- The values handed back to the host, oldest first (R51, R69). -/
  results : List HostResult
  deriving DecidableEq, Repr

/-- Why the machine stops without a usage fault. The block itself never does: every usage fault of R142 is a
next state with `S.FAULT = 1` (R155). These two are raised by `step` alone, when what the host handed over is
not a command of R69; R166 gives the block no behaviour for it (log entry 8, DESIGN CHOICE). -/
inductive Fault where
  /-- `step`: a command word whose operand (R72) was not handed over with it. Safe: the model stops. -/
  | operandMissing
  /-- `step`: a byte string where a command word was expected. Safe: the model stops. -/
  | strayBytes
  deriving DecidableEq, Repr

/-- Why an instruction is refused. -/
inductive Refusal where
  /-- `exec`: the instruction has no meaning yet; safe. No arm of `exec` answers so. -/
  | notModelled (mnemonic : String)
  deriving DecidableEq, Repr

/-- The build parameters of the reset state: R9's defaults where it gives them, constants of Config of
which nothing is known where it gives none (log entry 3). -/
def Params.reset : Params :=
  { dualFm := true
    psgModeA := Config.psgMode .hwA
    psgModeB := Config.psgMode .hwB
    psgModeC := Config.psgMode .hwC
    psgChmask := 0x00
    psgVolmask := 0xFF
    bufCap := Config.bufCapLessOne + 1
    fmLenHp := Config.fmLen .hp
    fmLenStd := Config.fmLen .std
    fmLenSimp := Config.fmLen .simplified
    psgLen := Config.psgLen }

/-- The configuration inputs of the reset state. DESIGN CHOICE (log entry 2): the spec gives none. -/
def MixConfig.reset : MixConfig :=
  { hwc := .hwA, pref := false, dac := 0, fmpre := 0, psgpre := 0, hq := false }

/-- Power-on (R170): PHASE OFF, VAR NONE, FAULT and FCAUSE 0. Every other register is UNSPECIFIED there and
takes a value named in log entry 1 (DESIGN CHOICE); nothing handed over, nothing observed. -/
def State.reset : State :=
  { params := Params.reset
    cfg := MixConfig.reset
    var := .noVariant
    ratio := .c42
    pt := 0
    fs := 0
    cl := 0
    cr := 0
    blen := 0
    buf := []
    phase := .off
    last := 0
    fault := false
    fcause := 0
    inbox := []
    answers := ⟨[], [], [], [], []⟩
    draws := 0
    trace := []
    results := [] }

end Sys2Proof.Machine
end

