-- ==== Sys2Proof/Machine/Operands.lean ====
section
/-! DEFINITION. The arithmetic primitives of R12 to R14, the selection tables of R9 and R88, and the persisted
layout of R128. -/

namespace Sys2Proof.Machine

/-! ### Arithmetic primitives -/

/-- The largest u32 value (R11). -/
def u32Max : Nat := 4294967295

/-- `tdiv(a, b)`: integer division truncating toward zero (R12). -/
def tdiv (a b : Int) : Int := a.sign * ((a.natAbs / b.natAbs : Nat) : Int)

/-- `ceildiv(a, b)`: the least n with n·b ≥ a, for b > 0 (R13). -/
def ceildiv (a b : Nat) : Nat := (a + b - 1) / b

/-! ### Variant, ratio and engine parameters -/

/-- The master cycles of a ratio (R9). -/
def cycles : Ratio → Nat
  | .c42 => 42
  | .c1008 => 1008
  | .c1080 => 1080

/-- `VARIANT_OF(hwc, pref)` (R88): HW_A has the two primary-family engines, the standard one alone in a build
without `DUAL_FM`; HW_B and HW_C have the simplified engine. -/
def variantOf (p : Params) (hwc : HwClass) (pref : Bool) : Variant :=
  match hwc with
  | .hwA => if p.dualFm && pref then .hp else .std
  | .hwB => .simplified
  | .hwC => .simplified

/-- `RATIO_OF(v)` (R9, R88). Before any SELECT there is no variant and no rule asks for its ratio
(log entry 10, DESIGN CHOICE). -/
def ratioOf : Variant → Ratio
  | .noVariant => .c42
  | .hp => .c42
  | .std => .c1008
  | .simplified => .c1080

/-- The DAC argument of `FM.bind`: CFG.DAC for STD, NONE for the others (R89, 92 D8). -/
def dacArgument (v : Variant) (dac : Byte) : Option Byte :=
  if v = .std then some dac else none

/-- `PSG_MODE(hwc)` (R9). -/
def psgMode (p : Params) : HwClass → Nat
  | .hwA => p.psgModeA
  | .hwB => p.psgModeB
  | .hwC => p.psgModeC

/-! ### The persisted layout (R128) -/

/-- `HAS_DISC(v)`: `DUAL_FM` is true and v is HP or STD. -/
def hasDisc (p : Params) (v : Variant) : Bool := p.dualFm && (v == .hp || v == .std)

/-- `DISC(v)`: 0x00 for STD, 0x01 for HP. -/
def disc (v : Variant) : Byte := if v = .hp then 0x01 else 0x00

/-- `FM_LEN(v)`. There is no engine, so no blob, before any SELECT (log entry 10, DESIGN CHOICE). -/
def fmLen (p : Params) : Variant → Nat
  | .noVariant => 0
  | .hp => p.fmLenHp
  | .std => p.fmLenStd
  | .simplified => p.fmLenSimp

/-- The discriminator field: one byte or none. -/
def discField (p : Params) (v : Variant) : List Byte := if hasDisc p v then [disc v] else []

/-- The length of the discriminator field, h. -/
def discLen (p : Params) (v : Variant) : Nat := if hasDisc p v then 1 else 0

/-- `L(v) = h + FM_LEN(v) + PSG_LEN + 4`. -/
def layoutLen (p : Params) (v : Variant) : Nat := discLen p v + fmLen p v + p.psgLen + 4

/-- `le32(v)`: least significant byte first (R14, R56). -/
def le32 (v : Word) : List Byte :=
  [v.extractLsb' 0 8, v.extractLsb' 8 8, v.extractLsb' 16 8, v.extractLsb' 24 8]

/-- `unle32(b0, b1, b2, b3)`, the inverse of `le32` (R14). -/
def unle32 (b0 b1 b2 b3 : Byte) : Word := b3 ++ b2 ++ b1 ++ b0

/-- `B[i..j)` (R14). -/
def slice (b : List Byte) (i j : Nat) : List Byte := (b.drop i).take (j - i)

/-- `B[i]`. Where LOAD asks for it, i is below the length it has checked (R131). -/
def byteAt (b : List Byte) (i : Nat) : Byte := b.getD i 0

/-- The FM blob of a byte string of variant v's layout. -/
def fmPart (p : Params) (v : Variant) (b : List Byte) : List Byte :=
  slice b (discLen p v) (discLen p v + fmLen p v)

/-- The PSG blob of a byte string of variant v's layout. -/
def psgPart (p : Params) (v : Variant) (b : List Byte) : List Byte :=
  slice b (discLen p v + fmLen p v) (discLen p v + fmLen p v + p.psgLen)

/-- The frame-start field of a byte string of variant v's layout. -/
def fsPart (p : Params) (v : Variant) (b : List Byte) : Word :=
  let o := discLen p v + fmLen p v + p.psgLen
  unle32 (byteAt b o) (byteAt b (o + 1)) (byteAt b (o + 2)) (byteAt b (o + 3))

end Sys2Proof.Machine
end

