-- ==== Sys2Proof/Machine/Flags.lean ====
section
/-! DEFINITION. The block has no condition codes (R36); its one flag is the sticky fault flag (R39). Here stand
the cause codes of R142 and every check that decides whether a command faults, in the order of R154. -/

namespace Sys2Proof.Machine

/-- The code of a cause (R142). Code 0 is "no fault"; 12 to 15 are reserved and never raised. -/
def Cause.code : Cause → BitVec 4
  | .cmdIllegal => 1
  | .notReady => 2
  | .reselect => 3
  | .stampOrder => 4
  | .readUnsupported => 5
  | .frameBaseline => 6
  | .midFrame => 7
  | .bufferOverflow => 8
  | .counterOverflow => 9
  | .arithOverflow => 10
  | .blobFormat => 11

/-- The value lies in s32 (R11). -/
def inS32 (v : Int) : Bool := -2147483648 ≤ v && v ≤ 2147483647

/-! ### Checks made before a command does anything (R154 groups 2 and 3) -/

/-- SELECT (R89, R145): in PHASE SELECTED, or RUNNING with samples pending. -/
def selectCheck (s : State) : Option Cause :=
  if s.phase = .selected then some .reselect
  else if s.phase = .running ∧ s.blen ≠ 0 then some .reselect
  else none

/-- RESET (R91, R144): no engine is bound in PHASE OFF. -/
def resetCheck (s : State) : Option Cause :=
  if s.phase = .off then some .notReady else none

/-- ADVANCE and FMW (R99, R100, R144, R146). -/
def accessCheck (cyc : Word) (s : State) : Option Cause :=
  if s.phase ≠ .running then some .notReady
  else if cyc.toNat < s.last.toNat then some .stampOrder
  else none

/-- FMR (R101, R147): the read restriction comes before the timestamp order. -/
def readCheck (cyc : Word) (s : State) : Option Cause :=
  if s.phase ≠ .running then some .notReady
  else if s.var = .simplified then some .readUnsupported
  else if cyc.toNat < s.last.toNat then some .stampOrder
  else none

/-- MIX (R111, R148). -/
def mixCheck (f : Word) (s : State) : Option Cause :=
  if s.phase ≠ .running then some .notReady
  else if f = 0 ∨ f.toNat < s.last.toNat then some .frameBaseline
  else none

/-- SAVE (R130, R149). -/
def saveCheck (s : State) : Option Cause :=
  if s.phase ≠ .running then some .notReady
  else if s.blen ≠ 0 then some .midFrame
  else none

/-- LOAD (R131, R149, R153): discriminator, then total length, before any engine call. -/
def loadCheck (b : List Byte) (s : State) : Option Cause :=
  if s.phase ≠ .running then some .notReady
  else if s.blen ≠ 0 then some .midFrame
  else if hasDisc s.params s.var = true ∧ b.head? ≠ some (disc s.var) then some .blobFormat
  else if b.length ≠ layoutLen s.params s.var then some .blobFormat
  else none

/-! ### Checks made during execution (R154 group 4) -/

/-- The samples owed up to `t`: `ceildiv(t − S.PT, S.RATIO)` (R98). -/
def owed (t : Word) (s : State) : Nat := ceildiv (t.toNat - s.pt.toNat) (cycles s.ratio)

/-- The owed pairs do not fit the buffer (R98, R150). -/
def bufferOverflows (n : Nat) (s : State) : Bool := s.params.bufCap < s.blen + n

/-- `S.PT` would exceed 2^32−1 (R98, R151). -/
def counterOverflows (n : Nat) (s : State) : Bool := u32Max < s.pt.toNat + n * cycles s.ratio

end Sys2Proof.Machine
end

