-- ==== Sys2Proof/Machine/Ops.lean ====
section
/-! DEFINITION. The operations every command is made of: recording a call, handing back a result, drawing a
collaborator's answer, reading and writing the FM Sample Buffer, fault entry, the advance step, and the frame of a
command (refused when faulted, checked, then executed). -/

namespace Sys2Proof.Machine

/-- What one step answers. -/
abbrev Out := Host.Outcome State Fault Refusal

/-! ### Trace and results (R14, R51) -/

/-- Append an event to the trace. -/
def record (e : Event) (s : State) : State := { s with trace := s.trace ++ [e] }

/-- `return v`: hand a value back to the host. -/
def giveBack (r : HostResult) (s : State) : State := { s with results := s.results ++ [r] }

/-! ### Collaborators' answers (R44) -/

/-- The n pairs `FM.generate(n)` answers: scripted ones first, then free ones (R44, R166: always n of them). -/
def drawnPairs (n : Nat) (s : State) : List Pair :=
  s.answers.pairs.take n ++
    (List.range (n - s.answers.pairs.length)).map (fun k => Config.fmPair (s.draws + k))

/-- The state after drawing n pairs. -/
def dropPairs (n : Nat) (s : State) : State :=
  { s with
    answers := { s.answers with pairs := s.answers.pairs.drop n }
    draws := s.draws + (n - s.answers.pairs.length) }

/-- How many free values one answer takes: none while scripted answers are left. -/
def freeDraws {α : Type} (script : List α) : Nat := 1 - script.length

/-- What `FM.read(a)` answers. -/
def readAnswer (a : Byte) (s : State) : Byte := s.answers.reads.headD (Config.fmRead a s.draws)

/-- `v <- call FM.read(a)`: the call and its answer recorded, the answer used up (R14, R40). -/
def callRead (a : Byte) (s : State) : State :=
  { s with
    answers := { s.answers with reads := s.answers.reads.tail }
    draws := s.draws + freeDraws s.answers.reads
    trace := s.trace ++ [.fmRead a (readAnswer a s)] }

/-- What `FM.saveState()` answers. -/
def fmSaveAnswer (s : State) : List Byte := s.answers.fmBlobs.headD (Config.fmBlob s.draws)

/-- `fb <- call FM.saveState()` (R14, R40). -/
def callFmSave (s : State) : State :=
  { s with
    answers := { s.answers with fmBlobs := s.answers.fmBlobs.tail }
    draws := s.draws + freeDraws s.answers.fmBlobs
    trace := s.trace ++ [.fmSaveState (fmSaveAnswer s)] }

/-- What `PSG.saveState()` answers. -/
def psgSaveAnswer (s : State) : List Byte := s.answers.psgBlobs.headD (Config.psgBlob s.draws)

/-- `pb <- call PSG.saveState()` (R14, R41). -/
def callPsgSave (s : State) : State :=
  { s with
    answers := { s.answers with psgBlobs := s.answers.psgBlobs.tail }
    draws := s.draws + freeDraws s.answers.psgBlobs
    trace := s.trace ++ [.psgSaveState (psgSaveAnswer s)] }

/-- What `RS.samplesAvailable()` answers. -/
def countAnswer (s : State) : Word := s.answers.counts.headD (Config.rsCount s.draws)

/-- `n <- call RS.samplesAvailable()` (R14, R42). -/
def callSamplesAvailable (s : State) : State :=
  { s with
    answers := { s.answers with counts := s.answers.counts.tail }
    draws := s.draws + freeDraws s.answers.counts
    trace := s.trace ++ [.rsSamplesAvailable (countAnswer s)] }

/-! ### The FM Sample Buffer (R37, R54, R55) -/

/-- `S.BUF[i]`, read whole. A cell nothing has written since power-on holds an unspecified pair (R29;
log entry 6). -/
def readPair (buf : List Pair) (i : Nat) : Pair := (buf[i]?).getD (Config.unwrittenPair i)

/-- Write `pairs` at cells `at_`, `at_ + 1`, …; every other cell keeps what it holds (R54). -/
def writePairs (buf : List Pair) (at_ : Nat) (pairs : List Pair) : List Pair :=
  buf.take at_ ++ (List.range' buf.length (at_ - buf.length)).map Config.unwrittenPair ++ pairs ++
    buf.drop (at_ + pairs.length)

/-! ### Fault entry (R155, R156) -/

/-- `raise Fault(CODE)` before the command has done anything: FAULT and FCAUSE are set, the event is recorded,
nothing else changes (R155, R156 on groups 1 to 3). -/
def raiseFault (c : Cause) (s : State) : State :=
  record (.fault c) { s with fault := true, fcause := c.code }

/-- The registers of the block after a fault raised during execution: UNSPECIFIED (R156, U19), so free values,
kept to the types of R29 (log entry 7). -/
def unspecifyRegisters (s : State) : State :=
  { s with
    var := Config.freeVariant s.draws
    ratio := Config.freeRatio s.draws
    phase := Config.freePhase s.draws
    pt := Config.freeWord s.draws
    fs := Config.freeWord (s.draws + 1)
    cl := Config.freeWord (s.draws + 2)
    cr := Config.freeWord (s.draws + 3)
    last := Config.freeWord (s.draws + 4)
    blen := Config.freeNat s.draws % (s.params.bufCap + 1)
    buf := (Config.freePairs s.draws).take s.params.bufCap
    draws := s.draws + 5 }

/-- `raise Fault(CODE)` during execution: the calls already made stay in the trace (R156 on group 4). -/
def raiseFaultDuring (c : Cause) (s : State) : State := raiseFault c (unspecifyRegisters s)

/-! ### The frame of a command -/

/-- What a command's execution comes to: the state after it, or the cause of a fault raised during execution with
the state at that point. -/
abbrev Attempt := Except (Cause × State) State

/-- A command: a faulted block refuses it with no effect and no trace event (R157); a failed check raises its cause
before anything is done (R154 groups 2 and 3); else it is executed (R154 group 4). -/
def runCommand (check : State → Option Cause) (body : State → Attempt) (s : State) : Out :=
  if s.fault then .next s
  else
    match check s with
    | some c => .next (raiseFault c s)
    | none =>
      match body s with
      | .ok s' => .next s'
      | .error (c, s') => .next (raiseFaultDuring c s')

/-- An illegal command word: CMD_ILLEGAL before any other check, with no effect (R75, R143); a faulted block
refuses it like any other command (R157). -/
def illegalCommand (s : State) : Out :=
  runCommand (fun _ => some .cmdIllegal) .ok s

/-! ### The advance step (R98) -/

/-- `FM.generate(n)` appended at the write position, and S.PT moved past the n samples (R54, R98). -/
def generate (n : Nat) (s : State) : State :=
  { record (.fmGenerate n (drawnPairs n s)) (dropPairs n s) with
    buf := writePairs s.buf s.blen (drawnPairs n s)
    blen := s.blen + n
    pt := BitVec.ofNat 32 (s.pt.toNat + n * cycles s.ratio) }

/-- `advance(t)`: every sample owed up to t and no more; nothing when t is already covered (R98). -/
def advance (t : Word) (s : State) : Attempt :=
  if s.pt.toNat < t.toNat then
    if bufferOverflows (owed t s) s then .error (.bufferOverflow, s)
    else if counterOverflows (owed t s) s then .error (.counterOverflow, s)
    else .ok (generate (owed t s) s)
  else .ok s

/-- `S.LAST <- cyc` (R38). -/
def noteStamp (cyc : Word) (s : State) : State := { s with last := cyc }

/-- ADVANCE's execution, which FMW and FMR begin with: note the timestamp, then advance to it (R99 to R101). -/
def present (cyc : Word) (s : State) : Attempt := advance cyc (noteStamp cyc s)

/-- Go on with the state an execution has come to, or keep the fault it raised. -/
def andThen (a : Attempt) (k : State → Attempt) : Attempt :=
  match a with
  | .ok s => k s
  | .error e => .error e

end Sys2Proof.Machine
end

