-- ==== Sys2Proof/Machine/Mixer.lean ====
section
/-! DEFINITION. The Frame Mixer's command MIX (42_mixer.md). -/

namespace Sys2Proof.Machine

/-- `amp(s, pre)` (R112): the exact product in hundredths, truncated toward zero; none when the product lies
outside s32 (ARITH_OVERFLOW). -/
def amp (x pre : S32) : Option S32 :=
  let p := x.toInt * pre.toInt
  if inS32 p then some (BitVec.ofInt 32 (tdiv p 100)) else none

/-- The delta from the previous emitted sample (R113); none when it lies outside s32 (ARITH_OVERFLOW). -/
def delta (x prev : S32) : Option S32 :=
  let d := x.toInt - prev.toInt
  if inS32 d then some (BitVec.ofInt 32 d) else none

/-- The submission of one delta in the mode `CFG.HQ` selects (R27, R117). -/
def submission (hq : Bool) (t : Nat) (dl dr : S32) : Event :=
  if hq then .rsAddDelta (BitVec.ofNat 32 t) dl dr else .rsAddDeltaFast (BitVec.ofNat 32 t) dl dr

/-- What one walk reads and never changes: the buffer, the frame length, the ratio, and the configuration sampled
at its start (R28, R111). -/
structure WalkInput where
  buf : List Pair
  frame : Nat
  step : Nat
  pre : S32
  hq : Bool
  deriving DecidableEq, Repr

/-- The walk's own variables (R111): the running timestamp, the index of the next pair, the previous emitted pair,
and the calls made so far. -/
structure Walk where
  t : Nat
  i : Nat
  pl : S32
  pr : S32
  calls : List Event
  deriving DecidableEq, Repr

/-- One iteration of the walk (R111 steps 3 and 4); none when a product or a delta overflows, before this pair's
delta is submitted (R152). -/
def walkPair (w : WalkInput) (k : Walk) : Option Walk :=
  match amp (readPair w.buf k.i).l w.pre, amp (readPair w.buf k.i).r w.pre with
  | some l, some r =>
    match delta l k.pl, delta r k.pr with
    | some dl, some dr =>
      some { t := k.t + w.step, i := k.i + 1, pl := l, pr := r,
             calls := k.calls ++ [submission w.hq k.t dl dr] }
    | _, _ => none
  | _, _ => none

/-- `while t < F` (R111 step 3), tested before each iteration (92 D20). Every iteration moves t up by at least 42
cycles, so `F − t` iterations are always enough (log entry 16). -/
def walkWhile (w : WalkInput) : Nat → Walk → Except Walk Walk
  | 0, k => .ok k
  | fuel + 1, k =>
    if k.t < w.frame then
      match walkPair w k with
      | some k' => walkWhile w fuel k'
      | none => .error k
    else .ok k

/-- What the walk of `MIX f` reads, in the state after the advance. -/
def walkInput (f : Word) (s : State) : WalkInput :=
  { buf := s.buf, frame := f.toNat, step := cycles s.ratio, pre := s.cfg.fmpre, hq := s.cfg.hq }

/-- Where the walk starts: at the residual, at the first pair, from the carry (R111). -/
def walkStart (s : State) : Walk :=
  { t := s.fs.toNat, i := 0, pl := s.cl, pr := s.cr, calls := [] }

/-- The walk of `MIX f` (R111 steps 3 and 4). -/
def walk (f : Word) (s : State) : Except Walk Walk :=
  walkWhile (walkInput f s) (f.toNat - s.fs.toNat) (walkStart s)

/-- Steps 5 to 7 of MIX: the carry, the emptied buffer, the residual `t − F` (R111). -/
def closeFrame (f : Word) (k : Walk) (s : State) : State :=
  { s with
    cl := k.pl
    cr := k.pr
    blen := 0
    pt := BitVec.ofNat 32 (k.t - f.toNat)
    fs := BitVec.ofNat 32 (k.t - f.toNat)
    last := 0
    trace := s.trace ++ k.calls ++ [.rsEndFrame f] }

/-- Steps 3 to 8 of MIX, after the advance. -/
def walkBody (f : Word) (s : State) : Attempt :=
  match walk f s with
  | .ok k =>
    .ok (giveBack (.count (countAnswer (closeFrame f k s))) (callSamplesAvailable (closeFrame f k s)))
  | .error k => .error (.arithOverflow, { s with trace := s.trace ++ k.calls })

/-- MIX's execution (R111): the PSG finalised, the FM engine advanced, the walk. -/
def mixBody (f : Word) (s : State) : Attempt :=
  andThen (advance f (record (.psgEndFrame f) s)) (walkBody f)

/-- MIX F (R111). -/
def execMix (f : Word) (s : State) : Out := runCommand (mixCheck f) (mixBody f) s

end Sys2Proof.Machine
end

