-- ==== Sys2Proof/Machine/Scheduler.lean ====
section
/-! DEFINITION. The Clock Scheduler's commands ADVANCE, FMW and FMR (41_scheduler.md). -/

namespace Sys2Proof.Machine

/-- ADVANCE cyc (R99). -/
def execAdvance (cyc : Word) (s : State) : Out := runCommand (accessCheck cyc) (present cyc) s

/-- FMW's execution (R100): the advance first, then `FM.write(a, d)`. -/
def writeBody (cyc : Word) (a d : Byte) (s : State) : Attempt :=
  andThen (present cyc s) (fun s => .ok (record (.fmWrite a d) s))

/-- FMW cyc, a, d (R100). -/
def execFmw (cyc : Word) (a d : Byte) (s : State) : Out :=
  runCommand (accessCheck cyc) (writeBody cyc a d) s

/-- FMR's execution (R101): the advance first, then `FM.read(a)`, whose answer is the result. -/
def readBody (cyc : Word) (a : Byte) (s : State) : Attempt :=
  andThen (present cyc s) (fun s => .ok (giveBack (.value (readAnswer a s)) (callRead a s)))

/-- FMR cyc, a (R101). -/
def execFmr (cyc : Word) (a : Byte) (s : State) : Out :=
  runCommand (readCheck cyc) (readBody cyc a) s

end Sys2Proof.Machine
end

