-- ==== Sys2Proof/Machine/Serializer.lean ====
section
/-! DEFINITION. The State Serializer's commands SAVE and LOAD (43_serializer.md). -/

namespace Sys2Proof.Machine

/-- The persisted state of R128: discriminator if any, FM blob, PSG blob, frame-start. -/
def persisted (s : State) (fb pb : List Byte) : List Byte :=
  discField s.params s.var ++ fb ++ pb ++ le32 s.fs

/-- SAVE's execution (R130): both engines asked in turn, each blob's length checked as it comes. -/
def saveBody (s : State) : Attempt :=
  if (fmSaveAnswer s).length ≠ fmLen s.params s.var then .error (.blobFormat, callFmSave s)
  else if (psgSaveAnswer (callFmSave s)).length ≠ s.params.psgLen then
    .error (.blobFormat, callPsgSave (callFmSave s))
  else
    .ok (giveBack (.bytes (persisted s (fmSaveAnswer s) (psgSaveAnswer (callFmSave s))))
      (callPsgSave (callFmSave s)))

/-- SAVE (R130). -/
def execSave (s : State) : Out := runCommand saveCheck saveBody s

/-- LOAD's execution (R131): the engines' blobs handed over unread, then the residual. -/
def loadLayout (b : List Byte) (s : State) : State :=
  { s with
    fs := fsPart s.params s.var b
    pt := fsPart s.params s.var b
    last := 0
    trace := s.trace ++
      [.fmLoadState (fmPart s.params s.var b), .psgLoadState (psgPart s.params s.var b)] }

/-- LOAD's execution raises no fault: every check comes before it (R131). -/
def loadBody (b : List Byte) (s : State) : Attempt := .ok (loadLayout b s)

/-- LOAD b (R131). -/
def execLoad (b : List Byte) (s : State) : Out := runCommand (loadCheck b) (loadBody b) s

end Sys2Proof.Machine
end

