-- ==== Sys2Proof/Machine/Session.lean ====
section
/-! DEFINITION. The session commands SELECT and RESET (40_session.md). -/

namespace Sys2Proof.Machine

/-- SELECT's execution (R89): variant and ratio from the configuration, engines bound, initialised and reset. -/
def selectBackend (s : State) : State :=
  let v := variantOf s.params s.cfg.hwc s.cfg.pref
  { s with
    var := v
    ratio := ratioOf v
    phase := .selected
    trace := s.trace ++
      [.fmBind v (dacArgument v s.cfg.dac), .psgInit (psgMode s.params s.cfg.hwc), .fmReset, .psgReset] }

/-- SELECT's execution raises no fault. -/
def selectBody (s : State) : Attempt := .ok (selectBackend s)

/-- SELECT (R89). -/
def execSelect (s : State) : Out := runCommand selectCheck selectBody s

/-- RESET's execution (R91): the engines reset, the PSG configured, the scheduler cleared. The buffer's contents,
the variant and the ratio stay. -/
def resetScheduler (s : State) : State :=
  { s with
    blen := 0
    cl := 0
    cr := 0
    pt := 0
    fs := 0
    last := 0
    phase := .running
    trace := s.trace ++
      [.fmReset, .psgReset, .psgConfigure s.params.psgChmask s.cfg.psgpre s.params.psgVolmask] }

/-- RESET's execution raises no fault. -/
def resetBody (s : State) : Attempt := .ok (resetScheduler s)

/-- RESET (R91). -/
def execReset (s : State) : Out := runCommand resetCheck resetBody s

end Sys2Proof.Machine
end

