-- ==== Sys2Proof/Machine/Dispatch.lean ====
section
/-! DEFINITION. One arm per command (R71). -/

namespace Sys2Proof.Machine

def exec (i : Instr) (s : State) : Host.Outcome State Fault Refusal :=
  match i with
  | .select => Sys2Proof.Machine.execSelect s
  | .reset => Sys2Proof.Machine.execReset s
  | .advance cyc => Sys2Proof.Machine.execAdvance cyc s
  | .fmw cyc a d => Sys2Proof.Machine.execFmw cyc a d s
  | .fmr cyc a => Sys2Proof.Machine.execFmr cyc a s
  | .mix cyc => Sys2Proof.Machine.execMix cyc s
  | .save => Sys2Proof.Machine.execSave s
  | .load b => Sys2Proof.Machine.execLoad b s

end Sys2Proof.Machine
end

