-- ==== Sys2Proof/Machine/Step.lean ====
section
/-! DEFINITION. One step: the block takes what the host handed over first and runs it to completion (R59, R61,
R69). The host's command order plays the part of a program counter (R36). -/

namespace Sys2Proof.Machine

/-- One step. With nothing handed over nothing happens: the block moves only in commands (R161, R165). A new
setting of the configuration inputs takes effect at the next command that reads it (R28). DEDUCED: log entries 4 and 9. -/
def step (s : State) : Host.Outcome State Fault Refusal :=
  match decode s.inbox with
  | .idle => .next s
  | .config c rest => .next { s with cfg := c, inbox := rest }
  | .command i rest => exec i { s with inbox := rest }
  | .illegal _ rest => illegalCommand { s with inbox := rest }
  | .operandMissing => .fault .operandMissing
  | .strayBytes => .fault .strayBytes

/-- The command whose bits are `w` handed over so that the next step runs it. -/
def State.withFetchWord (s : State) (nbits w : Nat) : State :=
  { s with inbox := itemsOfBits nbits w ++ s.inbox }

end Sys2Proof.Machine
end

