-- ==== Sys2Proof/Machine/Assembler.lean ====
section
/-! DEFINITION. The assembler of R78 and the pseudo-commands of R79: from a line of text to a line of syntax, from a
line of syntax to commands, from commands to what the host hands over. What R78 leaves open of the text is log entry 13
(DESIGN CHOICE). -/

namespace Sys2Proof.Machine

/-! ### Pseudo-commands and operand ranges (R78, R79) -/

/-- The commands a line stands for; none when an operand is out of range (R78) or LOAD names a byte string the
host does not supply. INIT is SELECT then RESET, SYNC is ADVANCE, HARDRESET is RESET (R79). -/
def assemble (blobs : List (List Char × List Byte)) (a : Asm) : Option (List Instr) :=
  if a.wellFormed then
    match a with
    | .select => some [.select]
    | .reset => some [.reset]
    | .advance cyc => some [.advance (BitVec.ofNat 32 cyc)]
    | .fmw cyc a d => some [.fmw (BitVec.ofNat 32 cyc) (BitVec.ofNat 8 a) (BitVec.ofNat 8 d)]
    | .fmr cyc a => some [.fmr (BitVec.ofNat 32 cyc) (BitVec.ofNat 8 a)]
    | .mix cyc => some [.mix (BitVec.ofNat 32 cyc)]
    | .save => some [.save]
    | .load name => (blobs.lookup name).map (fun b => [.load b])
    | .init => some [.select, .reset]
    | .sync cyc => some [.advance (BitVec.ofNat 32 cyc)]
    | .hardreset => some [.reset]
  else none

/-- What the host hands over for a list of commands, in order (R69). -/
def encodeAll (is : List Instr) : List HostItem := is.flatMap encode

/-! ### The text of a line (R78) -/

/-- A blank: space, tab, carriage return. -/
def isBlank (c : Char) : Bool := c == ' ' || c == '\t' || c == '\r'

/-- Without the blanks at either end. -/
def trim (cs : List Char) : List Char := ((cs.dropWhile isBlank).reverse.dropWhile isBlank).reverse

/-- The part before `;`, which starts a comment. -/
def beforeComment (cs : List Char) : List Char := cs.takeWhile (fun c => c != ';')

/-- The operands of a line, separated by commas; none when nothing is written. -/
def commaFields : List Char → List (List Char)
  | [] => [[]]
  | c :: cs =>
    if c == ',' then [] :: commaFields cs
    else
      match commaFields cs with
      | [] => [[c]]
      | x :: xs => (c :: x) :: xs

/-- The value of a digit in base 10 or 16, by the letter. -/
def digitValue (base : Nat) (c : Char) : Option Nat :=
  let v :=
    if '0' ≤ c ∧ c ≤ '9' then c.toNat - '0'.toNat
    else if 'a' ≤ c ∧ c ≤ 'f' then c.toNat - 'a'.toNat + 10
    else if 'A' ≤ c ∧ c ≤ 'F' then c.toNat - 'A'.toNat + 10
    else base
  if v < base then some v else none

/-- The number that digits spell after `acc`. -/
def digitsFrom (base acc : Nat) : List Char → Option Nat
  | [] => some acc
  | c :: cs =>
    match digitValue base c with
    | some v => digitsFrom base (acc * base + v) cs
    | none => none

/-- A number in decimal, or in hexadecimal with a `0x` prefix; at least one digit. -/
def number : List Char → Option Nat
  | [] => none
  | ['0', 'x'] => none
  | '0' :: 'x' :: cs => digitsFrom 16 0 cs
  | cs => digitsFrom 10 0 cs

/-- What a line of text is. -/
inductive Line where
  /-- Nothing but blanks and a comment. -/
  | empty
  /-- A command or a pseudo-command. -/
  | asm (a : Asm)
  /-- Not a line of R78 or R79. -/
  | bad
  deriving DecidableEq, Repr

/-- A line of syntax with one number. -/
def withNumber (f : Nat → Asm) : List (List Char) → Line
  | [x] => (number x).elim .bad (fun n => .asm (f n))
  | _ => .bad

/-- A line of syntax with two numbers. -/
def withNumbers2 (f : Nat → Nat → Asm) : List (List Char) → Line
  | [x, y] => (number x).elim .bad (fun n => (number y).elim .bad (fun m => .asm (f n m)))
  | _ => .bad

/-- A line of syntax with three numbers. -/
def withNumbers3 (f : Nat → Nat → Nat → Asm) : List (List Char) → Line
  | [x, y, z] =>
    (number x).elim .bad (fun n => (number y).elim .bad (fun m => (number z).elim .bad (fun k => .asm (f n m k))))
  | _ => .bad

/-- A line of syntax without operands. -/
def withNone (a : Asm) : List (List Char) → Line
  | [] => .asm a
  | _ => .bad

/-- A line of syntax that names a byte string. -/
def withName : List (List Char) → Line
  | [x] => if x = [] then .bad else .asm (.load x)
  | _ => .bad

/-- The mnemonics and pseudo-commands by their letters (R78, R79), with the operands each takes. -/
def lineOf (mnemonic : List Char) (ops : List (List Char)) : Line :=
  if mnemonic = ['S', 'E', 'L', 'E', 'C', 'T'] then withNone .select ops
  else if mnemonic = ['R', 'E', 'S', 'E', 'T'] then withNone .reset ops
  else if mnemonic = ['A', 'D', 'V', 'A', 'N', 'C', 'E'] then withNumber .advance ops
  else if mnemonic = ['F', 'M', 'W'] then withNumbers3 .fmw ops
  else if mnemonic = ['F', 'M', 'R'] then withNumbers2 .fmr ops
  else if mnemonic = ['M', 'I', 'X'] then withNumber .mix ops
  else if mnemonic = ['S', 'A', 'V', 'E'] then withNone .save ops
  else if mnemonic = ['L', 'O', 'A', 'D'] then withName ops
  else if mnemonic = ['I', 'N', 'I', 'T'] then withNone .init ops
  else if mnemonic = ['S', 'Y', 'N', 'C'] then withNumber .sync ops
  else if mnemonic = ['H', 'A', 'R', 'D', 'R', 'E', 'S', 'E', 'T'] then withNone .hardreset ops
  else .bad

/-- Read one line (R78): a comment cut off, the mnemonic up to the first blank, operands separated by commas. -/
def parseLine (cs : List Char) : Line :=
  let body := trim (beforeComment cs)
  if body = [] then .empty
  else
    let operands := trim (body.dropWhile (fun c => !isBlank c))
    lineOf (body.takeWhile (fun c => !isBlank c))
      (if operands = [] then [] else (commaFields operands).map trim)

/-- Assemble lines of text, one command per line (R78); none when a line is bad or is refused. -/
def assembleText (blobs : List (List Char × List Byte)) : List (List Char) → Option (List Instr)
  | [] => some []
  | cs :: rest =>
    match parseLine cs with
    | .empty => assembleText blobs rest
    | .bad => none
    | .asm a =>
      match assemble blobs a, assembleText blobs rest with
      | some is, some more => some (is ++ more)
      | _, _ => none

end Sys2Proof.Machine
end

