-- ==== Sys2Proof/Safety.lean ====
section
/-! DEFINITION. What counts as a safe run (R157), the observation (R51), the invariants of 10_state.md §5, and the
terms statements are written in: closed forms of what one frame submits, with no loop in them. -/

namespace Sys2Proof.Machine

/-! ### Runs -/

/-- Not faulted and in PHASE RUNNING: the states the invariants of 10_state.md §5 speak of. -/
abbrev State.Live (s : State) : Prop := s.fault = false ∧ s.phase = .running

/-- A state at which a run has failed (R157). -/
abbrev State.Failed (s : State) : Prop := s.fault = true

/-- Between frames (92 D26): running with an empty buffer. -/
abbrev State.BetweenFrames (s : State) : Prop := s.Live ∧ s.blen = 0

/-- The observation of a run (R51): the trace, the values returned to the host, the final fault state. -/
structure Observation where
  trace : List Event
  results : List HostResult
  fault : Bool
  fcause : BitVec 4
  deriving DecidableEq, Repr

/-- What of a state is observed. -/
def State.observe (s : State) : Observation := ⟨s.trace, s.results, s.fault, s.fcause⟩

/-- Commands one after the other, stopping where the machine stops. -/
def runCommands : List Instr → State → Out
  | [], s => .next s
  | i :: is, s =>
    match exec i s with
    | .next s' => runCommands is s'
    | .fault r => .fault r
    | .refused r => .refused r

/-- The timestamp a register access or ADVANCE presents; none for the other commands. -/
def stampOf : Instr → Option Word
  | .select => none
  | .reset => none
  | .advance cyc => some cyc
  | .fmw cyc _ _ => some cyc
  | .fmr cyc _ => some cyc
  | .mix _ => none
  | .save => none
  | .load _ => none

/-- Stereo pairs generated by the calls of a trace. -/
def generatedPairs : List Event → Nat
  | [] => 0
  | .fmGenerate n _ :: es => n + generatedPairs es
  | _ :: es => generatedPairs es

/-- Deltas submitted by the calls of a trace, in either mode. -/
def submittedDeltas : List Event → Nat
  | [] => 0
  | .rsAddDelta _ _ _ :: es => submittedDeltas es + 1
  | .rsAddDeltaFast _ _ _ :: es => submittedDeltas es + 1
  | _ :: es => submittedDeltas es

/-- The same call in the band-limited mode (R117). -/
def bandLimited : Event → Event
  | .rsAddDeltaFast t dl dr => .rsAddDelta t dl dr
  | e => e

/-! ### Invariants -/

/-- INV1 (R46): `S.PT − S.FS` is a non-negative multiple of `S.RATIO`. -/
def Inv1 (s : State) : Prop := s.Live → ∃ k : Nat, s.pt.toNat = s.fs.toNat + k * cycles s.ratio

/-- INV2 (R47): `S.BLEN · S.RATIO = S.PT − S.FS`. -/
def Inv2 (s : State) : Prop := s.Live → s.pt.toNat = s.fs.toNat + s.blen * cycles s.ratio

/-- INV3 (R48): the buffer holds no more pairs than the span presented since the frame's start needs. -/
def Inv3 (s : State) : Prop :=
  s.Live → s.blen = if s.last.toNat ≤ s.fs.toNat then 0 else ceildiv (s.last.toNat - s.fs.toNat) (cycles s.ratio)

/-- INV4 (R49), as a property of one state: the residual is below the ratio. -/
def Inv4 (s : State) : Prop := s.Live → s.fs.toNat < cycles s.ratio

/-- `S.BLEN` lies in 0 .. BUF_CAP (R29), and every valid pair has been written (R37). -/
def BufferInv (s : State) : Prop := s.Live → s.blen ≤ s.params.bufCap ∧ s.blen ≤ s.buf.length

/-- The variant and its ratio belong together from the first SELECT on, and there is none before it (R29 to R32). -/
def BackendInv (s : State) : Prop :=
  s.fault = false →
    (s.phase = .off → s.var = .noVariant) ∧
    (s.phase ≠ .off → s.var ≠ .noVariant ∧ s.ratio = ratioOf s.var)

/-- The carry holds an amplified value or 0 (R35, R124). -/
def CarryInv (s : State) : Prop := s.Live → |s.cl.toInt| ≤ 21474836 ∧ |s.cr.toInt| ≤ 21474836

/-- `S.FCAUSE` is 0 before a fault and one of the causes 1 .. 11 after it (R39, R142). -/
def FaultInv (s : State) : Prop :=
  (s.fault = false → s.fcause = 0) ∧ (s.fault = true → ∃ c : Cause, s.fcause = c.code)

/-- Every `FM.generate` of the trace was asked for at least one pair and answered exactly as many (R54, R104). -/
def GenerateInv (s : State) : Prop :=
  ∀ n ps, Event.fmGenerate n ps ∈ s.trace → 1 ≤ n ∧ ps.length = n

/-- The invariants every step keeps. -/
structure Inv (s : State) : Prop where
  inv1 : Inv1 s
  inv2 : Inv2 s
  inv3 : Inv3 s
  buffer : BufferInv s
  backend : BackendInv s
  carry : CarryInv s
  cause : FaultInv s
  generated : GenerateInv s

/-- Equal in everything a later command can depend on: equal but for cells of `S.BUF` at index `S.BLEN` or above
(R37), for what has already been observed, and for what the host has yet to say. -/
def SameToCome (s s' : State) : Prop :=
  s' = { s with buf := s'.buf, trace := s'.trace, results := s'.results, inbox := s'.inbox } ∧
    ∀ i, i < s.blen → readPair s.buf i = readPair s'.buf i

/-- A fault raised during execution (R155, R156 on group 4): the cause recorded, the calls made before it kept in the
trace, no result; the registers are UNSPECIFIED and nothing is said of them. -/
def AbortedWith (c : Cause) (calls : List Event) (s t : State) : Prop :=
  t.fault = true ∧ t.fcause = c.code ∧ t.trace = s.trace ++ calls ++ [.fault c] ∧
    t.results = s.results ∧ t.inbox = s.inbox ∧ t.cfg = s.cfg ∧ t.params = s.params

/-! ### Closed forms of one frame -/

/-- The samples owed up to t fit the buffer and the counter (R98). -/
abbrev Room (t : Word) (s : State) : Prop :=
  s.pt.toNat < t.toNat →
    s.blen + owed t s ≤ s.params.bufCap ∧ s.pt.toNat + owed t s * cycles s.ratio ≤ u32Max

/-- The call an advance to t makes, if any (R98). -/
def generateCall (t : Word) (s : State) : List Event :=
  if s.pt.toNat < t.toNat then [.fmGenerate (owed t s) (drawnPairs (owed t s) s)] else []

/-- The state an advance to t that has room comes to. -/
def advanced (t : Word) (s : State) : State :=
  if s.pt.toNat < t.toNat then generate (owed t s) s else s

/-- The pairs MIX f walks: those pending, then those its own advance generates (R111, R114). -/
def framePairs (f : Word) (s : State) : List Pair :=
  (List.range s.blen).map (readPair s.buf) ++
    if s.pt.toNat < f.toNat then drawnPairs (owed f s) s else []

/-- Neither product of the pair leaves s32 (R112). -/
abbrev Amplifiable (pre : S32) (p : Pair) : Prop :=
  inS32 (p.l.toInt * pre.toInt) = true ∧ inS32 (p.r.toInt * pre.toInt) = true

/-- The amplified pair (R112). -/
def emit (pre : S32) (p : Pair) : Pair :=
  ⟨BitVec.ofInt 32 (tdiv (p.l.toInt * pre.toInt) 100), BitVec.ofInt 32 (tdiv (p.r.toInt * pre.toInt) 100)⟩

/-- The deltas of emitted pairs against the pair before each, `prev` before the first, one ratio apart (R113, R115). -/
def submissions (hq : Bool) (step : Nat) : Nat → Pair → List Pair → List Event
  | _, _, [] => []
  | t, prev, e :: es =>
    submission hq t (e.l - prev.l) (e.r - prev.r) :: submissions hq step (t + step) e es

/-- The carry as a pair. -/
def State.carry (s : State) : Pair := ⟨s.cl, s.cr⟩

/-- Where the walk of MIX f ends: one ratio for each pair from the residual on (R115). -/
def frameEnd (f : Word) (s : State) : Nat := s.fs.toNat + (framePairs f s).length * cycles s.ratio

/-- An outcome with its next state changed. -/
def mapNext (g : State → State) : Out → Out
  | .next s => .next (g s)
  | .fault r => .fault r
  | .refused r => .refused r

end Sys2Proof.Machine
end

