-- ==== Sys2Proof/Certificates/Slice0/Obligations.lean ====
section
/-! DEFINITION. The statements for the provers, one `def Obligations.<Name> : Prop` each. Every docstring names the
rule of spec/ the statement formalises. "A live state" is one that is not faulted and in PHASE RUNNING. -/

open Sys2Proof Sys2Proof.Machine

/-! ### Encoding -/

/-- R80: the ten rows of the table of sample encodings, each encoded and decoded. -/
def Obligations.SampleCommandsAsTabulated : Prop :=
  (encode .select = [.word 0x00000001] ∧ decode [.word 0x00000001] = .command .select []) ∧
  (encode .reset = [.word 0x00000002] ∧ decode [.word 0x00000002] = .command .reset []) ∧
  (encode (.advance 126) = [.word 0x00000003, .word 0x0000007E] ∧
    decode [.word 0x00000003, .word 0x0000007E] = .command (.advance 126) []) ∧
  (encode (.fmw 100 0x00 0x22) = [.word 0x00220004, .word 0x00000064] ∧
    decode [.word 0x00220004, .word 0x00000064] = .command (.fmw 100 0x00 0x22) []) ∧
  (encode (.fmw 40000 0x01 0xB4) = [.word 0x00B40104, .word 0x00009C40] ∧
    decode [.word 0x00B40104, .word 0x00009C40] = .command (.fmw 40000 0x01 0xB4) []) ∧
  (encode (.fmr 5 0x01) = [.word 0x00000105, .word 0x00000005] ∧
    decode [.word 0x00000105, .word 0x00000005] = .command (.fmr 5 0x01) []) ∧
  (encode (.mix 50000) = [.word 0x00000006, .word 0x0000C350] ∧
    decode [.word 0x00000006, .word 0x0000C350] = .command (.mix 50000) []) ∧
  (encode .save = [.word 0x00000007] ∧ decode [.word 0x00000007] = .command .save []) ∧
  (∀ b, encode (.load b) = [.word 0x00000008, .bytes b] ∧
    decode [.word 0x00000008, .bytes b] = .command (.load b) []) ∧
  (∀ w1 : Word, decode [.word 0x00000106, .word w1] = .illegal .addressNotZero [])

/-- Rules R69 to R73, R77: decoding what the host hands over for a command gives that command back, every operand at
every value, whatever follows it. -/
def Obligations.DecodeReadsBackEncode : Prop :=
  ∀ (i : Instr) (rest : List HostItem), decode (encode i ++ rest) = .command i rest

/-- Rules R71, R75, R77: each command has one encoding; what decodes to it is that encoding. -/
def Obligations.EncodeWritesBackDecode : Prop :=
  ∀ (items : List HostItem) (i : Instr) (rest : List HostItem),
    decode items = .command i rest → items = encode i ++ rest

/-- R76: the legal words are exactly those that match one row of the opcode table, and the row is the command's. -/
def Obligations.LegalWordsMatchOneRow : Prop :=
  ∀ (w0 w1 : Word) (b : List Byte),
    ((∃ i, decodeWord w0 w1 b = .ok i) ↔ (opcodeRows.filter (fun r => r.matchesWord w0)).length = 1) ∧
    (∀ i, decodeWord w0 w1 b = .ok i →
      ∀ r ∈ opcodeRows, (r.matchesWord w0 = true ↔ r.mnemonic = i.mnemonic))

/-- R75, R143: which command words are illegal, and that an illegal one raises CMD_ILLEGAL (code 1) before any other
check (the phase is not looked at), with no collaborator call and no register change other than fault entry. -/
def Obligations.IllegalWordsRaiseCmdIllegal : Prop :=
  (∀ (w0 w1 : Word) (b : List Byte), (∃ why, decodeWord w0 w1 b = .error why) ↔
    (opField w0 = 0 ∨ 9 ≤ (opField w0).toNat) ∨ rsv0Field w0 ≠ 0 ∨ rsv1Field w0 ≠ 0 ∨
      (aField w0 ≠ 0 ∧ opField w0 ≠ 4 ∧ opField w0 ≠ 5) ∨ (dField w0 ≠ 0 ∧ opField w0 ≠ 4)) ∧
  (∀ (s : State) (why : Illegal) (rest : List HostItem), s.fault = false → decode s.inbox = .illegal why rest →
    step s = .next { s with inbox := rest, fault := true, fcause := 1, trace := s.trace ++ [.fault .cmdIllegal] })

/-- R72: the length of a command is told from OP alone; a reserved OP takes no operand word. -/
def Obligations.OperandsTakenByOperationCode : Prop :=
  ∀ (w0 w1 : Word) (b : List Byte) (rest : List HostItem),
    (opField w0 = 3 ∨ opField w0 = 4 ∨ opField w0 = 5 ∨ opField w0 = 6 →
      decode (.word w0 :: .word w1 :: rest) = decodedAs (decodeWord w0 w1 []) rest) ∧
    (opField w0 = 8 → decode (.word w0 :: .bytes b :: rest) = decodedAs (decodeWord w0 0 b) rest) ∧
    (opField w0 = 0 ∨ opField w0 = 1 ∨ opField w0 = 2 ∨ opField w0 = 7 ∨ 9 ≤ (opField w0).toNat →
      decode (.word w0 :: rest) = decodedAs (decodeWord w0 0 []) rest)

/-- R73: operands are assembled by zero extension only, from the bits the rule names. -/
def Obligations.OperandsAreZeroExtended : Prop :=
  ∀ (w0 w1 : Word) (b : List Byte) (i : Instr), decodeWord w0 w1 b = .ok i →
    match i with
    | .select => True
    | .reset => True
    | .advance cyc => cyc.toNat = w1.toNat
    | .fmw cyc a d =>
      cyc.toNat = w1.toNat ∧ a.toNat = w0.toNat / 2 ^ 8 % 2 ^ 8 ∧ d.toNat = w0.toNat / 2 ^ 16 % 2 ^ 8
    | .fmr cyc a => cyc.toNat = w1.toNat ∧ a.toNat = w0.toNat / 2 ^ 8 % 2 ^ 8
    | .mix cyc => cyc.toNat = w1.toNat
    | .save => True
    | .load b' => b' = b

/-- R78: the assembler keeps the value of every operand in range and refuses every other value; LOAD names a byte
string the host supplies. -/
def Obligations.AssemblerKeepsOrRefusesOperands : Prop :=
  ∀ (blobs : List (List Char × List Byte)) (cyc a d : Nat) (name : List Char) (is : List Instr),
    (assemble blobs (.advance cyc) = some is ↔
      cyc < 2 ^ 32 ∧ ∃ c : Word, c.toNat = cyc ∧ is = [.advance c]) ∧
    (assemble blobs (.fmw cyc a d) = some is ↔
      cyc < 2 ^ 32 ∧ a < 2 ^ 8 ∧ d < 2 ^ 8 ∧
        ∃ (c : Word) (a' d' : Byte), c.toNat = cyc ∧ a'.toNat = a ∧ d'.toNat = d ∧ is = [.fmw c a' d']) ∧
    (assemble blobs (.fmr cyc a) = some is ↔
      cyc < 2 ^ 32 ∧ a < 2 ^ 8 ∧ ∃ (c : Word) (a' : Byte), c.toNat = cyc ∧ a'.toNat = a ∧ is = [.fmr c a']) ∧
    (assemble blobs (.mix cyc) = some is ↔ cyc < 2 ^ 32 ∧ ∃ c : Word, c.toNat = cyc ∧ is = [.mix c]) ∧
    (assemble blobs (.load name) = some is ↔ ∃ b, blobs.lookup name = some b ∧ is = [.load b]) ∧
    (assemble blobs .select = some [.select] ∧ assemble blobs .reset = some [.reset] ∧
      assemble blobs .save = some [.save])

/-- R79: the pseudo-commands and their expansions. -/
def Obligations.PseudoCommandsExpand : Prop :=
  ∀ (blobs : List (List Char × List Byte)) (cyc : Nat),
    assemble blobs .init = some [.select, .reset] ∧
    assemble blobs (.sync cyc) = assemble blobs (.advance cyc) ∧
    assemble blobs .hardreset = assemble blobs .reset

/-! ### Steps, power-on, boot -/

/-- R36, R69: when the host's items decode to a command, a step runs that command on the state that has taken it. -/
def Obligations.StepRunsTheDecodedCommand : Prop :=
  ∀ (s : State) (i : Instr) (rest : List HostItem),
    decode s.inbox = .command i rest → step s = exec i { s with inbox := rest }

/-- What a step does with what is no command word handed over with its operand (an illegal word is
IllegalWordsRaiseCmdIllegal): nothing when there is nothing (R161, R165), a new configuration setting taken over (R28),
and the two stops of the model for what is no command of R69, a byte string that stands first and a command word that
the operand R72 asks for does not follow, be it that nothing follows or an item of another kind (log entry 8: the
model's choice). -/
def Obligations.StepOnOtherItems : Prop :=
  (∀ s : State, s.inbox = [] → step s = .next s) ∧
  (∀ (s : State) (c : MixConfig) (rest : List HostItem), s.inbox = .config c :: rest →
    step s = .next { s with cfg := c, inbox := rest }) ∧
  (∀ (s : State) (b : List Byte) (rest : List HostItem), s.inbox = .bytes b :: rest →
    step s = .fault .strayBytes) ∧
  (∀ (s : State) (w0 : Word) (rest : List HostItem), s.inbox = .word w0 :: rest →
    (operandKind (opField w0) = .word ∧ ∀ w1 more, rest ≠ .word w1 :: more) ∨
      (operandKind (opField w0) = .bytes ∧ ∀ b more, rest ≠ .bytes b :: more) →
    step s = .fault .operandMissing)

/-- R170: the values the spec gives the registers at power-on. The values of the other registers there are the model's
choice (log entry 1), and nothing is said of them here. -/
def Obligations.PowerOnState : Prop :=
  State.reset.phase = .off ∧ State.reset.var = .noVariant ∧ State.reset.fault = false ∧ State.reset.fcause = 0

/-- R29, R170: no command reads an unspecified register before SELECT and RESET have written it. In PHASE OFF the
values of the nine unspecified registers, and in PHASE SELECTED those of the eight that SELECT has not written, make no
difference to what is observed nor to any register that is specified afterwards. -/
def Obligations.UnspecifiedRegistersAreNotRead : Prop :=
  ∀ (i : Instr) (s s' : State),
    (s.phase = .off ∨ (s.phase = .selected ∧ s'.ratio = s.ratio)) →
    s' = { s with ratio := s'.ratio, pt := s'.pt, fs := s'.fs, cl := s'.cl, cr := s'.cr,
                  blen := s'.blen, buf := s'.buf, last := s'.last } →
    ∃ t t', exec i s = .next t ∧ exec i s' = .next t' ∧
      t.observe = t'.observe ∧ t.var = t'.var ∧ t.phase = t'.phase ∧ t.answers = t'.answers ∧ t.draws = t'.draws ∧
      (t.phase = .selected → t'.ratio = t.ratio) ∧
      (t.phase = .running → t' = { t with buf := t'.buf })

/-- R173: SELECT then RESET takes a block in PHASE OFF to PHASE RUNNING at cycle 0, with the variant and ratio of the
configuration and every scheduler register defined. -/
def Obligations.BootReachesRunning : Prop :=
  ∀ s : State, s.fault = false → s.phase = .off →
    ∃ t, runCommands [.select, .reset] s = .next t ∧ t.Live ∧
      t.var = variantOf s.params s.cfg.hwc s.cfg.pref ∧ t.ratio = ratioOf t.var ∧
      t.pt = 0 ∧ t.fs = 0 ∧ t.cl = 0 ∧ t.cr = 0 ∧ t.blen = 0 ∧ t.last = 0

/-! ### Session commands -/

/-- R88: the variant and the ratio for every hardware class, preference flag and build. -/
def Obligations.VariantAndRatioTable : Prop :=
  ∀ p : Params,
    (p.dualFm = true → variantOf p .hwA true = .hp ∧ variantOf p .hwA false = .std) ∧
    (p.dualFm = false → ∀ pref, variantOf p .hwA pref = .std) ∧
    (∀ pref, variantOf p .hwB pref = .simplified ∧ variantOf p .hwC pref = .simplified) ∧
    cycles (ratioOf .hp) = 42 ∧ cycles (ratioOf .std) = 1008 ∧ cycles (ratioOf .simplified) = 1080

/-- R89, R145: SELECT's encoding and that no other word with its operation code is legal, when it raises RESELECT, and
otherwise exactly what it writes and calls, in order; in PHASE SELECTED, where it leaves the block, every command but
RESET faults. -/
def Obligations.SelectChoosesTheBackend : Prop :=
  encode .select = [.word 0x00000001] ∧
  (∀ (w0 : Word) (rest : List HostItem), opField w0 = 1 → w0 ≠ 0x00000001 →
    ∃ why, decode (.word w0 :: rest) = .illegal why rest) ∧
  ∀ s : State, s.fault = false →
    (s.phase = .selected → ∀ i, i ≠ .reset → ∃ t, exec i s = .next t ∧ t.fault = true) ∧
    (s.phase = .selected → exec .select s = .next (raiseFault .reselect s)) ∧
    (s.phase = .running → s.blen ≠ 0 → exec .select s = .next (raiseFault .reselect s)) ∧
    (s.phase = .off ∨ (s.phase = .running ∧ s.blen = 0) →
      ∀ v, v = variantOf s.params s.cfg.hwc s.cfg.pref →
        exec .select s = .next
          { s with
            var := v
            ratio := ratioOf v
            phase := .selected
            trace := s.trace ++
              [.fmBind v (if v = .std then some s.cfg.dac else none), .psgInit (psgMode s.params s.cfg.hwc),
                .fmReset, .psgReset] })

/-- R91: RESET's encoding, NOT_READY in PHASE OFF, and otherwise exactly what it writes and calls. -/
def Obligations.ResetClearsTheScheduler : Prop :=
  encode .reset = [.word 0x00000002] ∧
  ∀ s : State, s.fault = false →
    (s.phase = .off → exec .reset s = .next (raiseFault .notReady s)) ∧
    (s.phase ≠ .off →
      exec .reset s = .next
        { s with
          blen := 0, cl := 0, cr := 0, pt := 0, fs := 0, last := 0, phase := .running
          trace := s.trace ++
            [.fmReset, .psgReset, .psgConfigure s.params.psgChmask s.cfg.psgpre s.params.psgVolmask] })

/-- R92: RESET drops what is pending. Whatever the buffer, the counters and the carry held, the state after RESET and
the calls it makes are the same, but for the contents of the buffer, which are unreachable. -/
def Obligations.ResetForgetsThePendingFrame : Prop :=
  ∀ (s : State) (pt fs last : Word) (cl cr : S32) (blen : Nat) (buf : List Pair),
    s.fault = false → s.phase ≠ .off →
    exec .reset { s with pt := pt, fs := fs, last := last, cl := cl, cr := cr, blen := blen, buf := buf } =
      mapNext (fun t => { t with buf := buf }) (exec .reset s)

/-- R90: no command but SELECT writes the variant or the ratio, and between SELECT and RESET every command but RESET
faults, so one ratio is used between two SELECTs. -/
def Obligations.RatioIsFixedForTheSession : Prop :=
  ∀ (i : Instr) (s t : State), i ≠ .select → exec i s = .next t → t.fault = false →
    t.var = s.var ∧ t.ratio = s.ratio ∧ (s.phase = .selected → i = .reset ∧ t.phase = .running)

/-! ### Clock Scheduler -/

/-- R98, R99: ADVANCE on a live state whose timestamp is in order: nothing but S.LAST changes when the timestamp is
covered; else exactly the owed pairs are generated, appended to the buffer, and S.PT moves past them. -/
def Obligations.AdvanceGeneratesTheOwedSamples : Prop :=
  ∀ (cyc : Word) (s : State), s.Live → s.last.toNat ≤ cyc.toNat →
    (cyc.toNat ≤ s.pt.toNat → exec (.advance cyc) s = .next { s with last := cyc }) ∧
    (s.pt.toNat < cyc.toNat →
      ∀ n, n = ceildiv (cyc.toNat - s.pt.toNat) (cycles s.ratio) →
        s.blen + n ≤ s.params.bufCap → s.pt.toNat + n * cycles s.ratio ≤ 2 ^ 32 - 1 →
        exec (.advance cyc) s = .next
          { s with
            last := cyc
            buf := writePairs s.buf s.blen (drawnPairs n s)
            blen := s.blen + n
            pt := BitVec.ofNat 32 (s.pt.toNat + n * cycles s.ratio)
            answers := { s.answers with pairs := s.answers.pairs.drop n }
            draws := s.draws + (n - s.answers.pairs.length)
            trace := s.trace ++ [.fmGenerate n (drawnPairs n s)] })

/-- R100, R62: FMW does what ADVANCE does and then makes the call FM.write(a, d), and nothing else. -/
def Obligations.FmwAdvancesThenWrites : Prop :=
  ∀ (cyc : Word) (a d : Byte) (s : State), s.Live → s.last.toNat ≤ cyc.toNat → Room cyc s →
    ∃ t, exec (.advance cyc) s = .next t ∧ t.fault = false ∧
      exec (.fmw cyc a d) s = .next { t with trace := t.trace ++ [.fmWrite a d] }

/-- R101, R62: FMR on a variant that supports reads does what ADVANCE does, then makes the call FM.read(a) and hands
the engine's answer, whatever it is, to the host. -/
def Obligations.FmrAdvancesThenReads : Prop :=
  ∀ (cyc : Word) (a : Byte) (s : State), s.Live → s.var ≠ .simplified → s.last.toNat ≤ cyc.toNat → Room cyc s →
    ∃ t v, exec (.advance cyc) s = .next t ∧ t.fault = false ∧ v = readAnswer a t ∧
      exec (.fmr cyc a) s = .next
        { t with
          answers := { t.answers with reads := t.answers.reads.tail }
          draws := t.draws + freeDraws t.answers.reads
          trace := t.trace ++ [.fmRead a v]
          results := t.results ++ [.value v] }

/-- R146, R147, R154: how ADVANCE, FMW and FMR are rejected, in the order of the checks: the phase, the read
restriction, the timestamp order, each with no effect but fault entry. -/
def Obligations.AccessesAreRejectedInOrder : Prop :=
  ∀ (i : Instr) (cyc : Word) (s : State), stampOf i = some cyc → s.fault = false →
    (s.phase ≠ .running → exec i s = .next (raiseFault .notReady s)) ∧
    (s.phase = .running → s.var = .simplified → (∃ a, i = .fmr cyc a) →
      exec i s = .next (raiseFault .readUnsupported s)) ∧
    (s.phase = .running → (s.var ≠ .simplified ∨ ∀ a, i ≠ .fmr cyc a) → cyc.toNat < s.last.toNat →
      exec i s = .next (raiseFault .stampOrder s))

/-- R150, R151 for ADVANCE, FMW and FMR: an advance that does not fit the buffer, or would take S.PT beyond 2^32−1,
faults before FM.generate is called and before the access is made. -/
def Obligations.AccessesOverflowBeforeTheCall : Prop :=
  ∀ (i : Instr) (cyc : Word) (s : State), stampOf i = some cyc → s.Live →
    (s.var ≠ .simplified ∨ ∀ a, i ≠ .fmr cyc a) → s.last.toNat ≤ cyc.toNat → s.pt.toNat < cyc.toNat →
    (s.params.bufCap < s.blen + owed cyc s →
      ∃ t, exec i s = .next t ∧ AbortedWith .bufferOverflow [] s t) ∧
    (s.blen + owed cyc s ≤ s.params.bufCap → 2 ^ 32 - 1 < s.pt.toNat + owed cyc s * cycles s.ratio →
      ∃ t, exec i s = .next t ∧ AbortedWith .counterOverflow [] s t)

/-- R103: no over-production. -/
def Obligations.NoOverProduction : Prop :=
  ∀ (t : Word) (s s' : State), advance t s = .ok s' →
    t.toNat ≤ s'.pt.toNat ∧ (s.pt.toNat < t.toNat → s'.pt.toNat < t.toNat + cycles s.ratio)

/-- R102: for non-decreasing timestamps c1 ≤ … ≤ cn presented by ADVANCE, FMW or FMR from a frame boundary with residual
r, the number of pairs generated in all is ceildiv(cn − r, RATIO) if cn > r, else 0, and S.PT covers exactly them. From
RESET r is 0. -/
def Obligations.SampleCountIsExact : Prop :=
  ∀ (is : List Instr) (cs : List Word) (c : Word) (s : State) (n : Nat),
    s.Live → s.blen = 0 → s.pt = s.fs → s.last = 0 →
    is.map stampOf = cs.map some → (∀ i ∈ is, s.var ≠ .simplified ∨ ∀ cyc a, i ≠ .fmr cyc a) →
    cs.Pairwise (fun x y => x.toNat ≤ y.toNat) → cs.getLast? = some c →
    n = ceildiv (c.toNat - s.fs.toNat) (cycles s.ratio) →
    n ≤ s.params.bufCap → s.fs.toNat + n * cycles s.ratio ≤ 2 ^ 32 - 1 →
    ∃ t, runCommands is s = .next t ∧ t.Live ∧
      generatedPairs t.trace = generatedPairs s.trace + n ∧ t.blen = n ∧
      t.pt.toNat = s.fs.toNat + n * cycles s.ratio ∧ t.last = c

/-- R54: FM.generate(n) writes exactly the n cells from the write position on, in order, and no other cell. -/
def Obligations.GenerateWritesOnlyItsCells : Prop :=
  ∀ (cyc : Word) (s : State), s.Live → s.last.toNat ≤ cyc.toNat → s.pt.toNat < cyc.toNat → Room cyc s →
    ∃ t, exec (.advance cyc) s = .next t ∧ t.blen = s.blen + owed cyc s ∧
      (∀ j, j < owed cyc s → some (readPair t.buf (s.blen + j)) = (drawnPairs (owed cyc s) s)[j]?) ∧
      (∀ i, i < s.blen ∨ s.blen + owed cyc s ≤ i → readPair t.buf i = readPair s.buf i)

/-! ### Frame Mixer -/

/-- R13: `ceildiv(a, b)` is floor((a + b − 1) / b), the least n with n·b ≥ a. -/
def Obligations.CeilDivIsTheLeastCover : Prop :=
  ∀ a b n : Nat, 0 < b → ceildiv a b = (a + b - 1) / b ∧ (ceildiv a b ≤ n ↔ a ≤ n * b)

/-- R112, R12: amplification is the exact product in hundredths, truncated toward zero, when the product lies in s32;
otherwise it overflows. -/
def Obligations.AmplificationTruncatesTheExactProduct : Prop :=
  ∀ x pre : S32,
    (x.toInt * pre.toInt < -2 ^ 31 ∨ 2 ^ 31 - 1 < x.toInt * pre.toInt → amp x pre = none) ∧
    (-2 ^ 31 ≤ x.toInt * pre.toInt → x.toInt * pre.toInt ≤ 2 ^ 31 - 1 →
      ∃ v, amp x pre = some v ∧
        v.toInt = (x.toInt * pre.toInt).sign * (((x.toInt * pre.toInt).natAbs / 100 : Nat) : Int))

/-- R124: every amplified value lies in [−21474836, 21474836], so the delta between two of them, or from the carry 0,
never overflows. -/
def Obligations.DeltaCheckNeverFires : Prop :=
  ∀ x pre v x' pre' v' : S32, amp x pre = some v → amp x' pre' = some v' →
    |v.toInt| ≤ 21474836 ∧ (∃ d, delta v v' = some d ∧ d.toInt = v.toInt - v'.toInt) ∧
      (∃ d, delta v 0 = some d ∧ d.toInt = v.toInt)

/-- R111, R113 to R119, R122: MIX, in closed form. On a live state of the invariants, with the frame length in order,
room for the owed samples and no product out of s32, MIX makes exactly these calls in this order, submits one delta for
every pair of the frame at its timestamp against the pair before it (the carry before the first), and leaves exactly
this state. -/
def Obligations.MixInClosedForm : Prop :=
  ∀ (f : Word) (s : State) (n : Word) (es : List Pair), s.Live → Inv2 s → Inv3 s → CarryInv s →
    f ≠ 0 → s.last.toNat ≤ f.toNat → Room f s →
    (∀ p ∈ framePairs f s, Amplifiable s.cfg.fmpre p) →
    n = countAnswer (advanced f s) → es = (framePairs f s).map (emit s.cfg.fmpre) →
    exec (.mix f) s = .next
      { s with
        buf := (advanced f s).buf
        cl := (es.getLastD s.carry).l
        cr := (es.getLastD s.carry).r
        blen := 0
        pt := BitVec.ofNat 32 (frameEnd f s - f.toNat)
        fs := BitVec.ofNat 32 (frameEnd f s - f.toNat)
        last := 0
        answers := { (advanced f s).answers with counts := (advanced f s).answers.counts.tail }
        draws := (advanced f s).draws + freeDraws (advanced f s).answers.counts
        trace := s.trace ++ [.psgEndFrame f] ++ generateCall f s ++
          submissions s.cfg.hq (cycles s.ratio) s.fs.toNat s.carry es ++ [.rsEndFrame f, .rsSamplesAvailable n]
        results := s.results ++ [.count n] }

/-- R148, R144: MIX is rejected outside PHASE RUNNING, and with FRAME_BASELINE for F = 0 or F below a timestamp already
presented, with no effect but fault entry. -/
def Obligations.MixIsRejectedOnItsBaseline : Prop :=
  ∀ (f : Word) (s : State), s.fault = false →
    (s.phase ≠ .running → exec (.mix f) s = .next (raiseFault .notReady s)) ∧
    (s.phase = .running → f = 0 ∨ f.toNat < s.last.toNat → exec (.mix f) s = .next (raiseFault .frameBaseline s))

/-- R150, R151 for MIX: the advance of a MIX overflows after PSG.endFrame(F), before FM.generate. -/
def Obligations.MixOverflowsBeforeGenerating : Prop :=
  ∀ (f : Word) (s : State), s.Live → f ≠ 0 → s.last.toNat ≤ f.toNat → s.pt.toNat < f.toNat →
    (s.params.bufCap < s.blen + owed f s →
      ∃ t, exec (.mix f) s = .next t ∧ AbortedWith .bufferOverflow [.psgEndFrame f] s t) ∧
    (s.blen + owed f s ≤ s.params.bufCap → 2 ^ 32 - 1 < s.pt.toNat + owed f s * cycles s.ratio →
      ∃ t, exec (.mix f) s = .next t ∧ AbortedWith .counterOverflow [.psgEndFrame f] s t)

/-- R152, R156: at the first pair of the frame whose product leaves s32 the walk stops with ARITH_OVERFLOW, before that
pair's delta is submitted; the deltas of the pairs before it stay in the trace. -/
def Obligations.MixStopsAtTheFirstOverflow : Prop :=
  ∀ (f : Word) (s : State) (before after : List Pair) (p : Pair), s.Live → Inv2 s → CarryInv s →
    f ≠ 0 → s.last.toNat ≤ f.toNat → Room f s → framePairs f s = before ++ p :: after →
    s.fs.toNat + before.length * cycles s.ratio < f.toNat →
    (∀ q ∈ before, Amplifiable s.cfg.fmpre q) → ¬ Amplifiable s.cfg.fmpre p →
    ∃ t, exec (.mix f) s = .next t ∧
      AbortedWith .arithOverflow
        ([.psgEndFrame f] ++ generateCall f s ++
          submissions s.cfg.hq (cycles s.ratio) s.fs.toNat s.carry (before.map (emit s.cfg.fmpre))) s t

/-- R118: a frame no longer than the residual walks no pair: no call but PSG.endFrame, RS.endFrame and
RS.samplesAvailable, the carry kept, the residual lowered by F. -/
def Obligations.EmptyWalkKeepsTheCarry : Prop :=
  ∀ (f : Word) (s : State) (n : Word), s.Live → Inv2 s → f ≠ 0 → s.last.toNat ≤ f.toNat →
    f.toNat ≤ s.fs.toNat → n = countAnswer s →
    exec (.mix f) s = .next
      { s with
        blen := 0
        pt := s.fs - f
        fs := s.fs - f
        last := 0
        answers := { s.answers with counts := s.answers.counts.tail }
        draws := s.draws + freeDraws s.answers.counts
        trace := s.trace ++ [.psgEndFrame f, .rsEndFrame f, .rsSamplesAvailable n]
        results := s.results ++ [.count n] }

/-- R115: the residual. Both counters become the overshoot of the walk over F: below one ratio when the walk was not
empty, S.FS − F when it was. -/
def Obligations.ResidualIsTheOvershoot : Prop :=
  ∀ (f : Word) (s t : State), s.Live → exec (.mix f) s = .next t → t.fault = false →
    t.pt = t.fs ∧
    (s.fs.toNat < f.toNat → t.fs.toNat < cycles s.ratio ∧
      ∃ k, 1 ≤ k ∧ s.fs.toNat + k * cycles s.ratio = f.toNat + t.fs.toNat) ∧
    (f.toNat ≤ s.fs.toNat → t.fs.toNat + f.toNat = s.fs.toNat)

/-- R121: from a residual below the ratio, n frames of one length F leave the residual (FS − n·F) mod R. -/
def Obligations.ResidualAfterFrames : Prop :=
  ∀ (n : Nat) (f : Word) (s t : State), s.Live → s.fs.toNat < cycles s.ratio →
    runCommands (List.replicate n (.mix f)) s = .next t → t.fault = false →
    (t.fs.toNat : Int) = ((s.fs.toNat : Int) - n * f.toNat) % cycles s.ratio

/-- R121: the residuals of frames of one length F repeat with period exactly R / gcd(F, R). -/
def Obligations.ResidualPeriodIsExact : Prop :=
  ∀ (n p : Nat) (f : Word) (s t u : State), s.Live → s.fs.toNat < cycles s.ratio →
    runCommands (List.replicate n (.mix f)) s = .next t → t.fault = false →
    runCommands (List.replicate (n + p) (.mix f)) s = .next u → u.fault = false →
    (u.fs = t.fs ↔ cycles s.ratio / Nat.gcd f.toNat (cycles s.ratio) ∣ p)

/-- R122: over any frames, the pairs submitted times the ratio are the frames' lengths and the change of the
residual. -/
def Obligations.SubmittedPairsAccountForTheFrames : Prop :=
  ∀ (fs : List Word) (s t : State), s.Live → runCommands (fs.map .mix) s = .next t → t.fault = false →
    submittedDeltas t.trace * cycles s.ratio + s.fs.toNat =
      submittedDeltas s.trace * cycles s.ratio + t.fs.toNat + (fs.map BitVec.toNat).sum

/-- R120: the carry is the last amplified pair of the frame, or what it was when the frame walked no pair. -/
def Obligations.CarryIsTheLastEmittedPair : Prop :=
  ∀ (f : Word) (s t : State), s.Live → Inv2 s → Inv3 s → CarryInv s → exec (.mix f) s = .next t → t.fault = false →
    (framePairs f s = [] → t.carry = s.carry) ∧
    (∀ p, (framePairs f s).getLast? = some p → t.carry = emit s.cfg.fmpre p)

/-- R117, R27: the mixing mode changes only which of the two calls submits each delta: with CFG.HQ false every delta
goes to addDeltaFast, with it true the same deltas at the same timestamps go to addDelta, and all else is equal. -/
def Obligations.MixingModeChangesOnlyTheCall : Prop :=
  ∀ (f : Word) (s : State), ∃ (t : State) (es : List Event),
    exec (.mix f) { s with cfg := { s.cfg with hq := false } } = .next t ∧ t.trace = s.trace ++ es ∧
    (∀ e ∈ es, ∀ x dl dr, e ≠ .rsAddDelta x dl dr) ∧
    exec (.mix f) { s with cfg := { s.cfg with hq := true } } =
      .next { t with cfg := { s.cfg with hq := true }, trace := s.trace ++ es.map bandLimited }

/-- R176: what a frame needs of the buffer. MIX F raises BUFFER_OVERFLOW exactly when ceildiv(F − S.FS, RATIO) pairs do
not fit BUF_CAP. -/
def Obligations.FrameNeedsItsPairsInTheBuffer : Prop :=
  ∀ (f : Word) (s : State), s.Live → Inv2 s → BufferInv s → f ≠ 0 → s.last.toNat ≤ f.toNat →
    ∃ t, exec (.mix f) s = .next t ∧
      (t.fcause = Cause.code .bufferOverflow ∧ t.fault = true ↔
        s.params.bufCap < ceildiv (f.toNat - s.fs.toNat) (cycles s.ratio))

/-! ### State Serializer -/

/-- R128, R130: SAVE between frames, when both engines answer blobs of their length: the byte string is discriminator
(if any), FM blob, PSG blob and the residual's four bytes, least significant first; no register changes. -/
def Obligations.SaveWritesTheLayout : Prop :=
  encode .save = [.word 0x00000007] ∧
  ∀ (s : State) (fb pb b : List Byte), s.Live → s.blen = 0 →
    fb = fmSaveAnswer s → pb = psgSaveAnswer (callFmSave s) →
    fb.length = fmLen s.params s.var → pb.length = s.params.psgLen →
    b = (if s.params.dualFm = true ∧ s.var = .std then [0x00]
          else if s.params.dualFm = true ∧ s.var = .hp then [0x01] else []) ++ fb ++ pb ++
        [BitVec.ofNat 8 s.fs.toNat, BitVec.ofNat 8 (s.fs.toNat / 2 ^ 8), BitVec.ofNat 8 (s.fs.toNat / 2 ^ 16),
          BitVec.ofNat 8 (s.fs.toNat / 2 ^ 24)] →
    b.length = layoutLen s.params s.var ∧
    exec .save s = .next
      { s with
        answers := { s.answers with fmBlobs := s.answers.fmBlobs.tail, psgBlobs := s.answers.psgBlobs.tail }
        draws := s.draws + freeDraws s.answers.fmBlobs + freeDraws s.answers.psgBlobs
        trace := s.trace ++ [.fmSaveState fb, .psgSaveState pb]
        results := s.results ++ [.bytes b] }

/-- R131: LOAD between frames of a byte string of the active variant's layout: the blobs go to the engines unchanged,
the residual is read back, produced-through becomes frame-start, and nothing else is written. -/
def Obligations.LoadRestoresTheLayout : Prop :=
  (∀ b, encode (.load b) = [.word 0x00000008, .bytes b]) ∧
  ∀ (s : State) (fb pb : List Byte) (b0 b1 b2 b3 : Byte), s.Live → s.blen = 0 →
    fb.length = fmLen s.params s.var → pb.length = s.params.psgLen →
    exec (.load (discField s.params s.var ++ fb ++ pb ++ [b0, b1, b2, b3])) s = .next
      { s with
        fs := b3 ++ b2 ++ b1 ++ b0
        pt := b3 ++ b2 ++ b1 ++ b0
        last := 0
        trace := s.trace ++ [.fmLoadState fb, .psgLoadState pb] }

/-- R149, R144: SAVE and LOAD are rejected outside PHASE RUNNING and in the middle of a frame, with no call. -/
def Obligations.SerializerOnlyBetweenFrames : Prop :=
  ∀ (i : Instr) (s : State), (i = .save ∨ ∃ b, i = .load b) → s.fault = false →
    (s.phase ≠ .running → exec i s = .next (raiseFault .notReady s)) ∧
    (s.phase = .running → s.blen ≠ 0 → exec i s = .next (raiseFault .midFrame s))

/-- R153: BLOB_FORMAT. LOAD raises it, with no engine call, for a wrong or missing discriminator or a wrong length; SAVE
raises it after the call whose blob has the wrong length, and then makes no further call. -/
def Obligations.BlobFormatIsChecked : Prop :=
  (∀ (b : List Byte) (s : State), s.Live → s.blen = 0 →
    (hasDisc s.params s.var = true ∧ (b = [] ∨ ∃ x rest, b = x :: rest ∧ x ≠ disc s.var)) ∨
      b.length ≠ layoutLen s.params s.var →
    exec (.load b) s = .next (raiseFault .blobFormat s)) ∧
  (∀ (s : State) (fb pb : List Byte), s.Live → s.blen = 0 →
    fb = fmSaveAnswer s → pb = psgSaveAnswer (callFmSave s) →
    (fb.length ≠ fmLen s.params s.var →
      ∃ t, exec .save s = .next t ∧ AbortedWith .blobFormat [.fmSaveState fb] s t) ∧
    (fb.length = fmLen s.params s.var → pb.length ≠ s.params.psgLen →
      ∃ t, exec .save s = .next t ∧ AbortedWith .blobFormat [.fmSaveState fb, .psgSaveState pb] s t))

/-- R133: SAVE followed directly by LOAD of its own result leaves every register unchanged but S.LAST, which is 0, and
hands each engine the very blob it was saved as. -/
def Obligations.SaveThenLoadKeepsTheRegisters : Prop :=
  ∀ (s t : State) (b : List Byte), s.Live → Inv2 s → exec .save s = .next t → t.fault = false →
    t.results = s.results ++ [.bytes b] →
    exec (.load b) t = .next
      { t with
        last := 0
        trace := t.trace ++ [.fmLoadState (fmSaveAnswer s), .psgLoadState (psgSaveAnswer (callFmSave s))] } ∧
    t.var = s.var ∧ t.ratio = s.ratio ∧ t.pt = s.pt ∧ t.fs = s.fs ∧ t.cl = s.cl ∧ t.cr = s.cr ∧
    t.blen = s.blen ∧ t.buf = s.buf ∧ t.phase = s.phase ∧ t.last = s.last

/-- R132: what block X has saved, loaded into a block Y of the same variant, build, configuration and carry, makes Y go
on as X does: if the collaborators then answer alike, every command sequence adds the same calls, answers and results.
The rule does not name S.LAST: Y's is 0 after LOAD, so X's is asked to be 0 as it is right after a frame boundary (the
model's reading, log entry 14). -/
def Obligations.RestoredBlockGoesOnAlike : Prop :=
  ∀ (x x' y y' : State) (b : List Byte) (is : List Instr), Inv x → Inv y → x.Live → y.Live →
    x.blen = 0 → y.blen = 0 → x.last = 0 → y.var = x.var → y.params = x.params → y.cfg = x.cfg →
    y.carry = x.carry → exec .save x = .next x' → x'.fault = false → x'.results = x.results ++ [.bytes b] →
    exec (.load b) y = .next y' → y'.answers = x'.answers → y'.draws = x'.draws →
    ∃ (t u : State) (es : List Event) (rs : List HostResult),
      runCommands is x' = .next t ∧ runCommands is y' = .next u ∧
      t.trace = x'.trace ++ es ∧ u.trace = y'.trace ++ es ∧
      t.results = x'.results ++ rs ∧ u.results = y'.results ++ rs ∧
      t.fault = u.fault ∧ t.fcause = u.fcause

/-! ### Usage faults -/

/-- R142: the cause codes. -/
def Obligations.CauseCodesAsTabulated : Prop :=
  Cause.code .cmdIllegal = 1 ∧ Cause.code .notReady = 2 ∧ Cause.code .reselect = 3 ∧ Cause.code .stampOrder = 4 ∧
  Cause.code .readUnsupported = 5 ∧ Cause.code .frameBaseline = 6 ∧ Cause.code .midFrame = 7 ∧
  Cause.code .bufferOverflow = 8 ∧ Cause.code .counterOverflow = 9 ∧ Cause.code .arithOverflow = 10 ∧
  Cause.code .blobFormat = 11 ∧ ∀ c : Cause, (Cause.code c).toNat < 12

/-- R155, R154: a command that faults records exactly one cause, as the last event of its trace, and has no result. -/
def Obligations.FaultEntryRecordsOneCause : Prop :=
  ∀ (i : Instr) (s t : State), s.fault = false → exec i s = .next t → t.fault = true →
    ∃ (c : Cause) (calls : List Event), AbortedWith c calls s t ∧ ∀ c', Event.fault c' ∉ calls

/-- R156, R154: a cause of groups 2 and 3 (any but the two overflows of the advance, ARITH_OVERFLOW and SAVE's
BLOB_FORMAT) is raised before the command makes any call or changes any register, the fault entry aside. -/
def Obligations.EarlyCausesArePrecise : Prop :=
  ∀ (i : Instr) (s t : State), s.fault = false → exec i s = .next t → t.fault = true →
    t.fcause ≠ Cause.code .bufferOverflow → t.fcause ≠ Cause.code .counterOverflow →
    t.fcause ≠ Cause.code .arithOverflow → (t.fcause = Cause.code .blobFormat → i ≠ .save) →
    ∃ c : Cause, t = { s with fault := true, fcause := c.code, trace := s.trace ++ [.fault c] }

/-- R157: a faulted block refuses every command with no effect and no trace event, and stays faulted with its first
cause however many steps follow. -/
def Obligations.FaultedBlockTakesNoCommand : Prop :=
  (∀ (i : Instr) (s : State), s.fault = true → exec i s = .next s) ∧
  ∀ (k : Nat) (s t : State), s.fault = true → Sys2Proof.core.run k s = .next t →
    t = { s with inbox := t.inbox, cfg := t.cfg }

/-! ### Invariants and whole-machine rules -/

/-- R46, R47, R48, with R29, R35, R39, R104: every step keeps the invariants: the produced span is a whole number of
ratios and the buffered pairs cover it, the buffer is never ahead of what was asked for, it fits BUF_CAP, variant and
ratio belong together, the carry is an amplified value, the cause is one of the table, and FM.generate is never called
with 0. -/
def Obligations.StepKeepsTheInvariants : Prop :=
  ∀ s t : State, Inv s → step s = .next t → Inv t

/-- The invariants hold at power-on. -/
def Obligations.PowerOnHasTheInvariants : Prop := Inv State.reset

/-- R49 (INV4), R134: the residual stays below the ratio in every step, a LOAD of a frame-start below the ratio
included; only a LOAD of one at or above it is left out. -/
def Obligations.ResidualStaysBelowTheRatio : Prop :=
  ∀ s t : State, Inv s → Inv4 s →
    (∀ b rest, decode s.inbox = .command (.load b) rest → (fsPart s.params s.var b).toNat < cycles s.ratio) →
    step s = .next t → Inv4 t

/-- R50: which registers each command leaves alone when it completes, which commands hand back a result and of what kind
(R69), and that no command touches the configuration inputs, the build parameters or what the host has yet to say. -/
def Obligations.CommandsWriteOnlyTheirRegisters : Prop :=
  ∀ (i : Instr) (s t : State), exec i s = .next t → s.fault = false → t.fault = false →
    t.cfg = s.cfg ∧ t.params = s.params ∧ t.inbox = s.inbox ∧ t.fcause = s.fcause ∧
    match i with
    | .select =>
      t.pt = s.pt ∧ t.fs = s.fs ∧ t.cl = s.cl ∧ t.cr = s.cr ∧ t.blen = s.blen ∧ t.buf = s.buf ∧
        t.last = s.last ∧ t.results = s.results
    | .reset => t.var = s.var ∧ t.ratio = s.ratio ∧ t.buf = s.buf ∧ t.results = s.results
    | .advance _ =>
      t.var = s.var ∧ t.ratio = s.ratio ∧ t.phase = s.phase ∧ t.fs = s.fs ∧ t.cl = s.cl ∧ t.cr = s.cr ∧
        t.results = s.results
    | .fmw _ _ _ =>
      t.var = s.var ∧ t.ratio = s.ratio ∧ t.phase = s.phase ∧ t.fs = s.fs ∧ t.cl = s.cl ∧ t.cr = s.cr ∧
        t.results = s.results
    | .fmr _ _ =>
      t.var = s.var ∧ t.ratio = s.ratio ∧ t.phase = s.phase ∧ t.fs = s.fs ∧ t.cl = s.cl ∧ t.cr = s.cr ∧
        ∃ v, t.results = s.results ++ [.value v]
    | .mix _ =>
      t.var = s.var ∧ t.ratio = s.ratio ∧ t.phase = s.phase ∧ ∃ n, t.results = s.results ++ [.count n]
    | .save =>
      t.var = s.var ∧ t.ratio = s.ratio ∧ t.phase = s.phase ∧ t.pt = s.pt ∧ t.fs = s.fs ∧ t.cl = s.cl ∧
        t.cr = s.cr ∧ t.blen = s.blen ∧ t.buf = s.buf ∧ t.last = s.last ∧
        ∃ b, t.results = s.results ++ [.bytes b]
    | .load _ =>
      t.var = s.var ∧ t.ratio = s.ratio ∧ t.phase = s.phase ∧ t.cl = s.cl ∧ t.cr = s.cr ∧ t.blen = s.blen ∧
        t.buf = s.buf ∧ t.results = s.results

/-- R21, R28: a command depends only on the configuration inputs it is said to read: SELECT on HWC, PREF and DAC, RESET
on PSGPRE, MIX on FMPRE and HQ, every other command on none. -/
def Obligations.CommandsReadOnlyTheirInputs : Prop :=
  ∀ (i : Instr) (s : State) (c : MixConfig),
    (i = .select → c.hwc = s.cfg.hwc ∧ c.pref = s.cfg.pref ∧ c.dac = s.cfg.dac) →
    (i = .reset → c.psgpre = s.cfg.psgpre) →
    ((∃ f, i = .mix f) → c.fmpre = s.cfg.fmpre ∧ c.hq = s.cfg.hq) →
    exec i { s with cfg := c } = mapNext (fun t => { t with cfg := c }) (exec i s)

/-- R61, R51: a step never takes back what has been observed, and never changes the build. -/
def Obligations.StepsOnlyAddToTheObservation : Prop :=
  ∀ s t : State, step s = .next t →
    (∃ es, t.trace = s.trace ++ es) ∧ (∃ rs, t.results = s.results ++ rs) ∧ t.params = s.params

/-- R37, R183: what a command sequence adds to the trace and the results is a function of the present registers, the
configuration and the collaborators' answers alone: neither a stale pair of the buffer nor anything observed before
makes a difference. -/
def Obligations.StalePairsAndHistoryMakeNoDifference : Prop :=
  ∀ (is : List Instr) (s s' : State), Inv s → Inv s' → SameToCome s s' →
    ∃ (t t' : State) (es : List Event) (rs : List HostResult),
      runCommands is s = .next t ∧ runCommands is s' = .next t' ∧ SameToCome t t' ∧
      t.trace = s.trace ++ es ∧ t'.trace = s'.trace ++ es ∧
      t.results = s.results ++ rs ∧ t'.results = s'.results ++ rs
end

