-- ==== Sys2Proof/Laws/Arith.lean ====
section
/-! SUPPORT. The arithmetic primitives in terms of the library's: truncating division, the s32 range, amplification and
delta as exact integers, byte order. -/

namespace Sys2Proof.Machine

/-- `tdiv` is the library's truncating division. -/
theorem tdiv_eq (a b : Int) (hb : 0 ≤ b) : tdiv a b = Int.tdiv a b := by
  obtain ⟨n, rfl⟩ := Int.eq_ofNat_of_zero_le hb
  rcases a with (_ | m) | m
  · exact Int.zero_mul _ |>.trans (by simp)
  · exact Int.one_mul _
  · exact Int.neg_one_mul _

theorem inS32_iff (v : Int) : inS32 v = true ↔ -2147483648 ≤ v ∧ v ≤ 2147483647 := by
  simp [inS32]

/-- Narrowing a value that lies in s32 keeps it. -/
theorem toInt_ofInt_of_inS32 {v : Int} (h : inS32 v = true) : (BitVec.ofInt 32 v).toInt = v := by
  obtain ⟨h1, h2⟩ := (inS32_iff v).1 h
  rw [BitVec.toInt_ofInt, Int.bmod_eq_of_le] <;> omega

/-- A hundredth of an s32 value, truncated, is at most 21474836 in magnitude. -/
theorem tdiv_hundred_bound {p : Int} (h : inS32 p = true) :
    -21474836 ≤ tdiv p 100 ∧ tdiv p 100 ≤ 21474836 := by
  obtain ⟨h1, h2⟩ := (inS32_iff p).1 h
  rw [tdiv_eq p 100 (by decide)]
  rcases Int.le_total 0 p with hp | hp
  · rw [Int.tdiv_eq_ediv_of_nonneg hp]; omega
  · obtain ⟨q, rfl⟩ : ∃ q, p = -q := ⟨-p, by omega⟩
    rw [Int.neg_tdiv, Int.tdiv_eq_ediv_of_nonneg (by omega)]; omega

/-- The ratio is 42 at least and 1080 at most. -/
theorem cycles_bounds (r : Ratio) : 42 ≤ cycles r ∧ cycles r ≤ 1080 := by cases r <;> simp [cycles]

theorem cycles_pos (r : Ratio) : 0 < cycles r := by have := cycles_bounds r; omega

/-- When a product fits, the amplified value is its hundredth. -/
theorem amp_of_fits {x pre : S32} (h : inS32 (x.toInt * pre.toInt) = true) :
    amp x pre = some (BitVec.ofInt 32 (tdiv (x.toInt * pre.toInt) 100)) := by
  simp [amp, h]

/-- When a product does not fit, nothing is emitted. -/
theorem amp_of_not_fits {x pre : S32} (h : inS32 (x.toInt * pre.toInt) = false) : amp x pre = none := by
  simp [amp, h]

/-- A difference that fits is the wrapped difference. -/
theorem delta_of_fits {x prev : S32} (h : inS32 (x.toInt - prev.toInt) = true) :
    delta x prev = some (x - prev) := by
  have : BitVec.ofInt 32 (x.toInt - prev.toInt) = x - prev := by
    apply BitVec.eq_of_toInt_eq
    rw [BitVec.toInt_sub, BitVec.toInt_ofInt]
  simp [delta, h, this]

/-- `unle32` is the inverse of `le32` (R14). -/
theorem unle32_le32 (v : Word) :
    unle32 (v.extractLsb' 0 8) (v.extractLsb' 8 8) (v.extractLsb' 16 8) (v.extractLsb' 24 8) = v := by
  apply BitVec.eq_of_toNat_eq
  simp only [unle32, BitVec.toNat_append, BitVec.extractLsb'_toNat, Nat.shiftRight_eq_div_pow]
  have h := v.isLt
  rw [← Nat.shiftLeft_add_eq_or_of_lt (by omega), ← Nat.shiftLeft_add_eq_or_of_lt (by omega),
    ← Nat.shiftLeft_add_eq_or_of_lt (by omega)]
  simp only [Nat.shiftLeft_eq]
  omega

@[simp] theorem le32_length (v : Word) : (le32 v).length = 4 := rfl

@[simp] theorem discField_length (p : Params) (v : Variant) : (discField p v).length = discLen p v := by
  unfold discField discLen; split <;> rfl

end Sys2Proof.Machine
end

