-- ==== Sys2Proof/Laws/Buffer.lean ====
section
/-! SUPPORT. The FM Sample Buffer: a read after a write gives what was written, and a write leaves every other cell
alone (R54); `FM.generate(n)` answers n pairs (R166). -/

namespace Sys2Proof.Machine

@[simp] theorem drawnPairs_length (n : Nat) (s : State) : (drawnPairs n s).length = n := by
  simp [drawnPairs]; omega

/-- The pairs drawn depend on the answers and the counter alone. -/
theorem drawnPairs_congr {s s' : State} (n : Nat) (ha : s.answers = s'.answers) (hd : s.draws = s'.draws) :
    drawnPairs n s = drawnPairs n s' := by
  simp [drawnPairs, ha, hd]

/-- Writing keeps every cell that was written. -/
theorem writePairs_length (buf : List Pair) (n : Nat) (ps : List Pair) :
    (writePairs buf n ps).length = max buf.length (n + ps.length) := by
  simp [writePairs]; omega

/-- A cell written holds the pair written to it. -/
theorem readPair_writePairs_inside (buf : List Pair) (n j : Nat) (ps : List Pair) (h : j < ps.length) :
    readPair (writePairs buf n ps) (n + j) = ps[j] := by
  have hl : (buf.take n ++ (List.range' buf.length (n - buf.length)).map Config.unwrittenPair).length = n := by
    simp; omega
  unfold readPair writePairs
  rw [List.append_assoc, List.getElem?_append_right (by omega), hl]
  rw [Nat.add_sub_cancel_left, List.getElem?_append_left h]
  simp [h]

/-- A cell not written keeps what it holds. -/
theorem readPair_writePairs_outside (buf : List Pair) (n i : Nat) (ps : List Pair)
    (h : i < n ∨ n + ps.length ≤ i) : readPair (writePairs buf n ps) i = readPair buf i := by
  have hl : (buf.take n ++ (List.range' buf.length (n - buf.length)).map Config.unwrittenPair).length = n := by
    simp; omega
  unfold readPair writePairs
  rcases h with h | h
  · rw [List.append_assoc, List.getElem?_append_left (by omega)]
    by_cases hb : i < buf.length
    · rw [List.getElem?_append_left (by simp; omega)]
      simp [h]
    · rw [List.getElem?_append_right (by simp; omega)]
      have h1 : (List.take n buf).length = buf.length := by simp; omega
      rw [h1, List.getElem?_map, List.getElem?_range' (by omega)]
      simp only [Option.map_some, Option.getD_some]
      rw [List.getElem?_eq_none (by omega)]
      simp; congr 1; omega
  · rw [List.getElem?_append_right (by simp only [List.length_append] at hl ⊢; omega)]
    rw [List.getElem?_drop]
    congr 2
    simp only [List.length_append] at hl ⊢
    omega

end Sys2Proof.Machine
end

