-- ==== Sys2Proof/Laws/State.lean ====
section
/-! SUPPORT. What each state update does to each field, one lemma per field per update, so that no later proof
unfolds a record update. A field that R156 leaves unspecified after a fault during execution has no lemma: nothing is
to be said of it. -/

namespace Sys2Proof.Machine

variable (s : State)

/-! ### noteStamp -/

@[simp] theorem noteStamp_params (cyc : Word) : (noteStamp cyc s).params = s.params := rfl
@[simp] theorem noteStamp_cfg (cyc : Word) : (noteStamp cyc s).cfg = s.cfg := rfl
@[simp] theorem noteStamp_var (cyc : Word) : (noteStamp cyc s).var = s.var := rfl
@[simp] theorem noteStamp_ratio (cyc : Word) : (noteStamp cyc s).ratio = s.ratio := rfl
@[simp] theorem noteStamp_pt (cyc : Word) : (noteStamp cyc s).pt = s.pt := rfl
@[simp] theorem noteStamp_fs (cyc : Word) : (noteStamp cyc s).fs = s.fs := rfl
@[simp] theorem noteStamp_cl (cyc : Word) : (noteStamp cyc s).cl = s.cl := rfl
@[simp] theorem noteStamp_cr (cyc : Word) : (noteStamp cyc s).cr = s.cr := rfl
@[simp] theorem noteStamp_blen (cyc : Word) : (noteStamp cyc s).blen = s.blen := rfl
@[simp] theorem noteStamp_buf (cyc : Word) : (noteStamp cyc s).buf = s.buf := rfl
@[simp] theorem noteStamp_phase (cyc : Word) : (noteStamp cyc s).phase = s.phase := rfl
@[simp] theorem noteStamp_last (cyc : Word) : (noteStamp cyc s).last = cyc := rfl
@[simp] theorem noteStamp_fault (cyc : Word) : (noteStamp cyc s).fault = s.fault := rfl
@[simp] theorem noteStamp_fcause (cyc : Word) : (noteStamp cyc s).fcause = s.fcause := rfl
@[simp] theorem noteStamp_inbox (cyc : Word) : (noteStamp cyc s).inbox = s.inbox := rfl
@[simp] theorem noteStamp_answers (cyc : Word) : (noteStamp cyc s).answers = s.answers := rfl
@[simp] theorem noteStamp_draws (cyc : Word) : (noteStamp cyc s).draws = s.draws := rfl
@[simp] theorem noteStamp_trace (cyc : Word) : (noteStamp cyc s).trace = s.trace := rfl
@[simp] theorem noteStamp_results (cyc : Word) : (noteStamp cyc s).results = s.results := rfl

/-! ### record -/

@[simp] theorem record_params (e : Event) : (record e s).params = s.params := rfl
@[simp] theorem record_cfg (e : Event) : (record e s).cfg = s.cfg := rfl
@[simp] theorem record_var (e : Event) : (record e s).var = s.var := rfl
@[simp] theorem record_ratio (e : Event) : (record e s).ratio = s.ratio := rfl
@[simp] theorem record_pt (e : Event) : (record e s).pt = s.pt := rfl
@[simp] theorem record_fs (e : Event) : (record e s).fs = s.fs := rfl
@[simp] theorem record_cl (e : Event) : (record e s).cl = s.cl := rfl
@[simp] theorem record_cr (e : Event) : (record e s).cr = s.cr := rfl
@[simp] theorem record_blen (e : Event) : (record e s).blen = s.blen := rfl
@[simp] theorem record_buf (e : Event) : (record e s).buf = s.buf := rfl
@[simp] theorem record_phase (e : Event) : (record e s).phase = s.phase := rfl
@[simp] theorem record_last (e : Event) : (record e s).last = s.last := rfl
@[simp] theorem record_fault (e : Event) : (record e s).fault = s.fault := rfl
@[simp] theorem record_fcause (e : Event) : (record e s).fcause = s.fcause := rfl
@[simp] theorem record_inbox (e : Event) : (record e s).inbox = s.inbox := rfl
@[simp] theorem record_answers (e : Event) : (record e s).answers = s.answers := rfl
@[simp] theorem record_draws (e : Event) : (record e s).draws = s.draws := rfl
@[simp] theorem record_trace (e : Event) : (record e s).trace = s.trace ++ [e] := rfl
@[simp] theorem record_results (e : Event) : (record e s).results = s.results := rfl

/-! ### giveBack -/

@[simp] theorem giveBack_params (r : HostResult) : (giveBack r s).params = s.params := rfl
@[simp] theorem giveBack_cfg (r : HostResult) : (giveBack r s).cfg = s.cfg := rfl
@[simp] theorem giveBack_var (r : HostResult) : (giveBack r s).var = s.var := rfl
@[simp] theorem giveBack_ratio (r : HostResult) : (giveBack r s).ratio = s.ratio := rfl
@[simp] theorem giveBack_pt (r : HostResult) : (giveBack r s).pt = s.pt := rfl
@[simp] theorem giveBack_fs (r : HostResult) : (giveBack r s).fs = s.fs := rfl
@[simp] theorem giveBack_cl (r : HostResult) : (giveBack r s).cl = s.cl := rfl
@[simp] theorem giveBack_cr (r : HostResult) : (giveBack r s).cr = s.cr := rfl
@[simp] theorem giveBack_blen (r : HostResult) : (giveBack r s).blen = s.blen := rfl
@[simp] theorem giveBack_buf (r : HostResult) : (giveBack r s).buf = s.buf := rfl
@[simp] theorem giveBack_phase (r : HostResult) : (giveBack r s).phase = s.phase := rfl
@[simp] theorem giveBack_last (r : HostResult) : (giveBack r s).last = s.last := rfl
@[simp] theorem giveBack_fault (r : HostResult) : (giveBack r s).fault = s.fault := rfl
@[simp] theorem giveBack_fcause (r : HostResult) : (giveBack r s).fcause = s.fcause := rfl
@[simp] theorem giveBack_inbox (r : HostResult) : (giveBack r s).inbox = s.inbox := rfl
@[simp] theorem giveBack_answers (r : HostResult) : (giveBack r s).answers = s.answers := rfl
@[simp] theorem giveBack_draws (r : HostResult) : (giveBack r s).draws = s.draws := rfl
@[simp] theorem giveBack_trace (r : HostResult) : (giveBack r s).trace = s.trace := rfl
@[simp] theorem giveBack_results (r : HostResult) : (giveBack r s).results = s.results ++ [r] := rfl

/-! ### dropPairs -/

@[simp] theorem dropPairs_params (n : Nat) : (dropPairs n s).params = s.params := rfl
@[simp] theorem dropPairs_cfg (n : Nat) : (dropPairs n s).cfg = s.cfg := rfl
@[simp] theorem dropPairs_var (n : Nat) : (dropPairs n s).var = s.var := rfl
@[simp] theorem dropPairs_ratio (n : Nat) : (dropPairs n s).ratio = s.ratio := rfl
@[simp] theorem dropPairs_pt (n : Nat) : (dropPairs n s).pt = s.pt := rfl
@[simp] theorem dropPairs_fs (n : Nat) : (dropPairs n s).fs = s.fs := rfl
@[simp] theorem dropPairs_cl (n : Nat) : (dropPairs n s).cl = s.cl := rfl
@[simp] theorem dropPairs_cr (n : Nat) : (dropPairs n s).cr = s.cr := rfl
@[simp] theorem dropPairs_blen (n : Nat) : (dropPairs n s).blen = s.blen := rfl
@[simp] theorem dropPairs_buf (n : Nat) : (dropPairs n s).buf = s.buf := rfl
@[simp] theorem dropPairs_phase (n : Nat) : (dropPairs n s).phase = s.phase := rfl
@[simp] theorem dropPairs_last (n : Nat) : (dropPairs n s).last = s.last := rfl
@[simp] theorem dropPairs_fault (n : Nat) : (dropPairs n s).fault = s.fault := rfl
@[simp] theorem dropPairs_fcause (n : Nat) : (dropPairs n s).fcause = s.fcause := rfl
@[simp] theorem dropPairs_inbox (n : Nat) : (dropPairs n s).inbox = s.inbox := rfl
@[simp] theorem dropPairs_answers (n : Nat) :
    (dropPairs n s).answers = { s.answers with pairs := s.answers.pairs.drop n } := rfl
@[simp] theorem dropPairs_draws (n : Nat) : (dropPairs n s).draws = s.draws + (n - s.answers.pairs.length) := rfl
@[simp] theorem dropPairs_trace (n : Nat) : (dropPairs n s).trace = s.trace := rfl
@[simp] theorem dropPairs_results (n : Nat) : (dropPairs n s).results = s.results := rfl

/-! ### callRead -/

@[simp] theorem callRead_params (a : Byte) : (callRead a s).params = s.params := rfl
@[simp] theorem callRead_cfg (a : Byte) : (callRead a s).cfg = s.cfg := rfl
@[simp] theorem callRead_var (a : Byte) : (callRead a s).var = s.var := rfl
@[simp] theorem callRead_ratio (a : Byte) : (callRead a s).ratio = s.ratio := rfl
@[simp] theorem callRead_pt (a : Byte) : (callRead a s).pt = s.pt := rfl
@[simp] theorem callRead_fs (a : Byte) : (callRead a s).fs = s.fs := rfl
@[simp] theorem callRead_cl (a : Byte) : (callRead a s).cl = s.cl := rfl
@[simp] theorem callRead_cr (a : Byte) : (callRead a s).cr = s.cr := rfl
@[simp] theorem callRead_blen (a : Byte) : (callRead a s).blen = s.blen := rfl
@[simp] theorem callRead_buf (a : Byte) : (callRead a s).buf = s.buf := rfl
@[simp] theorem callRead_phase (a : Byte) : (callRead a s).phase = s.phase := rfl
@[simp] theorem callRead_last (a : Byte) : (callRead a s).last = s.last := rfl
@[simp] theorem callRead_fault (a : Byte) : (callRead a s).fault = s.fault := rfl
@[simp] theorem callRead_fcause (a : Byte) : (callRead a s).fcause = s.fcause := rfl
@[simp] theorem callRead_inbox (a : Byte) : (callRead a s).inbox = s.inbox := rfl
@[simp] theorem callRead_answers (a : Byte) :
    (callRead a s).answers = { s.answers with reads := s.answers.reads.tail } := rfl
@[simp] theorem callRead_draws (a : Byte) : (callRead a s).draws = s.draws + freeDraws s.answers.reads := rfl
@[simp] theorem callRead_trace (a : Byte) : (callRead a s).trace = s.trace ++ [.fmRead a (readAnswer a s)] := rfl
@[simp] theorem callRead_results (a : Byte) : (callRead a s).results = s.results := rfl

/-! ### callFmSave -/

@[simp] theorem callFmSave_params : (callFmSave s).params = s.params := rfl
@[simp] theorem callFmSave_cfg : (callFmSave s).cfg = s.cfg := rfl
@[simp] theorem callFmSave_var : (callFmSave s).var = s.var := rfl
@[simp] theorem callFmSave_ratio : (callFmSave s).ratio = s.ratio := rfl
@[simp] theorem callFmSave_pt : (callFmSave s).pt = s.pt := rfl
@[simp] theorem callFmSave_fs : (callFmSave s).fs = s.fs := rfl
@[simp] theorem callFmSave_cl : (callFmSave s).cl = s.cl := rfl
@[simp] theorem callFmSave_cr : (callFmSave s).cr = s.cr := rfl
@[simp] theorem callFmSave_blen : (callFmSave s).blen = s.blen := rfl
@[simp] theorem callFmSave_buf : (callFmSave s).buf = s.buf := rfl
@[simp] theorem callFmSave_phase : (callFmSave s).phase = s.phase := rfl
@[simp] theorem callFmSave_last : (callFmSave s).last = s.last := rfl
@[simp] theorem callFmSave_fault : (callFmSave s).fault = s.fault := rfl
@[simp] theorem callFmSave_fcause : (callFmSave s).fcause = s.fcause := rfl
@[simp] theorem callFmSave_inbox : (callFmSave s).inbox = s.inbox := rfl
@[simp] theorem callFmSave_answers :
    (callFmSave s).answers = { s.answers with fmBlobs := s.answers.fmBlobs.tail } := rfl
@[simp] theorem callFmSave_draws : (callFmSave s).draws = s.draws + freeDraws s.answers.fmBlobs := rfl
@[simp] theorem callFmSave_trace : (callFmSave s).trace = s.trace ++ [.fmSaveState (fmSaveAnswer s)] := rfl
@[simp] theorem callFmSave_results : (callFmSave s).results = s.results := rfl

/-! ### callPsgSave -/

@[simp] theorem callPsgSave_params : (callPsgSave s).params = s.params := rfl
@[simp] theorem callPsgSave_cfg : (callPsgSave s).cfg = s.cfg := rfl
@[simp] theorem callPsgSave_var : (callPsgSave s).var = s.var := rfl
@[simp] theorem callPsgSave_ratio : (callPsgSave s).ratio = s.ratio := rfl
@[simp] theorem callPsgSave_pt : (callPsgSave s).pt = s.pt := rfl
@[simp] theorem callPsgSave_fs : (callPsgSave s).fs = s.fs := rfl
@[simp] theorem callPsgSave_cl : (callPsgSave s).cl = s.cl := rfl
@[simp] theorem callPsgSave_cr : (callPsgSave s).cr = s.cr := rfl
@[simp] theorem callPsgSave_blen : (callPsgSave s).blen = s.blen := rfl
@[simp] theorem callPsgSave_buf : (callPsgSave s).buf = s.buf := rfl
@[simp] theorem callPsgSave_phase : (callPsgSave s).phase = s.phase := rfl
@[simp] theorem callPsgSave_last : (callPsgSave s).last = s.last := rfl
@[simp] theorem callPsgSave_fault : (callPsgSave s).fault = s.fault := rfl
@[simp] theorem callPsgSave_fcause : (callPsgSave s).fcause = s.fcause := rfl
@[simp] theorem callPsgSave_inbox : (callPsgSave s).inbox = s.inbox := rfl
@[simp] theorem callPsgSave_answers :
    (callPsgSave s).answers = { s.answers with psgBlobs := s.answers.psgBlobs.tail } := rfl
@[simp] theorem callPsgSave_draws : (callPsgSave s).draws = s.draws + freeDraws s.answers.psgBlobs := rfl
@[simp] theorem callPsgSave_trace : (callPsgSave s).trace = s.trace ++ [.psgSaveState (psgSaveAnswer s)] := rfl
@[simp] theorem callPsgSave_results : (callPsgSave s).results = s.results := rfl

/-! ### callSamplesAvailable -/

@[simp] theorem callSamplesAvailable_params : (callSamplesAvailable s).params = s.params := rfl
@[simp] theorem callSamplesAvailable_cfg : (callSamplesAvailable s).cfg = s.cfg := rfl
@[simp] theorem callSamplesAvailable_var : (callSamplesAvailable s).var = s.var := rfl
@[simp] theorem callSamplesAvailable_ratio : (callSamplesAvailable s).ratio = s.ratio := rfl
@[simp] theorem callSamplesAvailable_pt : (callSamplesAvailable s).pt = s.pt := rfl
@[simp] theorem callSamplesAvailable_fs : (callSamplesAvailable s).fs = s.fs := rfl
@[simp] theorem callSamplesAvailable_cl : (callSamplesAvailable s).cl = s.cl := rfl
@[simp] theorem callSamplesAvailable_cr : (callSamplesAvailable s).cr = s.cr := rfl
@[simp] theorem callSamplesAvailable_blen : (callSamplesAvailable s).blen = s.blen := rfl
@[simp] theorem callSamplesAvailable_buf : (callSamplesAvailable s).buf = s.buf := rfl
@[simp] theorem callSamplesAvailable_phase : (callSamplesAvailable s).phase = s.phase := rfl
@[simp] theorem callSamplesAvailable_last : (callSamplesAvailable s).last = s.last := rfl
@[simp] theorem callSamplesAvailable_fault : (callSamplesAvailable s).fault = s.fault := rfl
@[simp] theorem callSamplesAvailable_fcause : (callSamplesAvailable s).fcause = s.fcause := rfl
@[simp] theorem callSamplesAvailable_inbox : (callSamplesAvailable s).inbox = s.inbox := rfl
@[simp] theorem callSamplesAvailable_answers :
    (callSamplesAvailable s).answers = { s.answers with counts := s.answers.counts.tail } := rfl
@[simp] theorem callSamplesAvailable_draws :
    (callSamplesAvailable s).draws = s.draws + freeDraws s.answers.counts := rfl
@[simp] theorem callSamplesAvailable_trace :
    (callSamplesAvailable s).trace = s.trace ++ [.rsSamplesAvailable (countAnswer s)] := rfl
@[simp] theorem callSamplesAvailable_results : (callSamplesAvailable s).results = s.results := rfl

/-! ### raiseFault -/

@[simp] theorem raiseFault_params (c : Cause) : (raiseFault c s).params = s.params := rfl
@[simp] theorem raiseFault_cfg (c : Cause) : (raiseFault c s).cfg = s.cfg := rfl
@[simp] theorem raiseFault_var (c : Cause) : (raiseFault c s).var = s.var := rfl
@[simp] theorem raiseFault_ratio (c : Cause) : (raiseFault c s).ratio = s.ratio := rfl
@[simp] theorem raiseFault_pt (c : Cause) : (raiseFault c s).pt = s.pt := rfl
@[simp] theorem raiseFault_fs (c : Cause) : (raiseFault c s).fs = s.fs := rfl
@[simp] theorem raiseFault_cl (c : Cause) : (raiseFault c s).cl = s.cl := rfl
@[simp] theorem raiseFault_cr (c : Cause) : (raiseFault c s).cr = s.cr := rfl
@[simp] theorem raiseFault_blen (c : Cause) : (raiseFault c s).blen = s.blen := rfl
@[simp] theorem raiseFault_buf (c : Cause) : (raiseFault c s).buf = s.buf := rfl
@[simp] theorem raiseFault_phase (c : Cause) : (raiseFault c s).phase = s.phase := rfl
@[simp] theorem raiseFault_last (c : Cause) : (raiseFault c s).last = s.last := rfl
@[simp] theorem raiseFault_fault (c : Cause) : (raiseFault c s).fault = true := rfl
@[simp] theorem raiseFault_fcause (c : Cause) : (raiseFault c s).fcause = c.code := rfl
@[simp] theorem raiseFault_inbox (c : Cause) : (raiseFault c s).inbox = s.inbox := rfl
@[simp] theorem raiseFault_answers (c : Cause) : (raiseFault c s).answers = s.answers := rfl
@[simp] theorem raiseFault_draws (c : Cause) : (raiseFault c s).draws = s.draws := rfl
@[simp] theorem raiseFault_trace (c : Cause) : (raiseFault c s).trace = s.trace ++ [.fault c] := rfl
@[simp] theorem raiseFault_results (c : Cause) : (raiseFault c s).results = s.results := rfl

/-! ### raiseFaultDuring -/

@[simp] theorem raiseFaultDuring_params (c : Cause) : (raiseFaultDuring c s).params = s.params := rfl
@[simp] theorem raiseFaultDuring_cfg (c : Cause) : (raiseFaultDuring c s).cfg = s.cfg := rfl
@[simp] theorem raiseFaultDuring_fault (c : Cause) : (raiseFaultDuring c s).fault = true := rfl
@[simp] theorem raiseFaultDuring_fcause (c : Cause) : (raiseFaultDuring c s).fcause = c.code := rfl
@[simp] theorem raiseFaultDuring_inbox (c : Cause) : (raiseFaultDuring c s).inbox = s.inbox := rfl
@[simp] theorem raiseFaultDuring_answers (c : Cause) : (raiseFaultDuring c s).answers = s.answers := rfl
@[simp] theorem raiseFaultDuring_draws (c : Cause) : (raiseFaultDuring c s).draws = s.draws + 5 := rfl
@[simp] theorem raiseFaultDuring_trace (c : Cause) : (raiseFaultDuring c s).trace = s.trace ++ [.fault c] := rfl
@[simp] theorem raiseFaultDuring_results (c : Cause) : (raiseFaultDuring c s).results = s.results := rfl

/-! ### generate -/

@[simp] theorem generate_params (n : Nat) : (generate n s).params = s.params := rfl
@[simp] theorem generate_cfg (n : Nat) : (generate n s).cfg = s.cfg := rfl
@[simp] theorem generate_var (n : Nat) : (generate n s).var = s.var := rfl
@[simp] theorem generate_ratio (n : Nat) : (generate n s).ratio = s.ratio := rfl
@[simp] theorem generate_pt (n : Nat) : (generate n s).pt = BitVec.ofNat 32 (s.pt.toNat + n * cycles s.ratio) := rfl
@[simp] theorem generate_fs (n : Nat) : (generate n s).fs = s.fs := rfl
@[simp] theorem generate_cl (n : Nat) : (generate n s).cl = s.cl := rfl
@[simp] theorem generate_cr (n : Nat) : (generate n s).cr = s.cr := rfl
@[simp] theorem generate_blen (n : Nat) : (generate n s).blen = s.blen + n := rfl
@[simp] theorem generate_buf (n : Nat) : (generate n s).buf = writePairs s.buf s.blen (drawnPairs n s) := rfl
@[simp] theorem generate_phase (n : Nat) : (generate n s).phase = s.phase := rfl
@[simp] theorem generate_last (n : Nat) : (generate n s).last = s.last := rfl
@[simp] theorem generate_fault (n : Nat) : (generate n s).fault = s.fault := rfl
@[simp] theorem generate_fcause (n : Nat) : (generate n s).fcause = s.fcause := rfl
@[simp] theorem generate_inbox (n : Nat) : (generate n s).inbox = s.inbox := rfl
@[simp] theorem generate_answers (n : Nat) : (generate n s).answers = (dropPairs n s).answers := rfl
@[simp] theorem generate_draws (n : Nat) : (generate n s).draws = (dropPairs n s).draws := rfl
@[simp] theorem generate_trace (n : Nat) : (generate n s).trace = s.trace ++ [.fmGenerate n (drawnPairs n s)] := rfl
@[simp] theorem generate_results (n : Nat) : (generate n s).results = s.results := rfl

/-! ### selectBackend -/

@[simp] theorem selectBackend_params : (selectBackend s).params = s.params := rfl
@[simp] theorem selectBackend_cfg : (selectBackend s).cfg = s.cfg := rfl
@[simp] theorem selectBackend_var : (selectBackend s).var = variantOf s.params s.cfg.hwc s.cfg.pref := rfl
@[simp] theorem selectBackend_ratio :
    (selectBackend s).ratio = ratioOf (variantOf s.params s.cfg.hwc s.cfg.pref) := rfl
@[simp] theorem selectBackend_pt : (selectBackend s).pt = s.pt := rfl
@[simp] theorem selectBackend_fs : (selectBackend s).fs = s.fs := rfl
@[simp] theorem selectBackend_cl : (selectBackend s).cl = s.cl := rfl
@[simp] theorem selectBackend_cr : (selectBackend s).cr = s.cr := rfl
@[simp] theorem selectBackend_blen : (selectBackend s).blen = s.blen := rfl
@[simp] theorem selectBackend_buf : (selectBackend s).buf = s.buf := rfl
@[simp] theorem selectBackend_phase : (selectBackend s).phase = .selected := rfl
@[simp] theorem selectBackend_last : (selectBackend s).last = s.last := rfl
@[simp] theorem selectBackend_fault : (selectBackend s).fault = s.fault := rfl
@[simp] theorem selectBackend_fcause : (selectBackend s).fcause = s.fcause := rfl
@[simp] theorem selectBackend_inbox : (selectBackend s).inbox = s.inbox := rfl
@[simp] theorem selectBackend_answers : (selectBackend s).answers = s.answers := rfl
@[simp] theorem selectBackend_draws : (selectBackend s).draws = s.draws := rfl
@[simp] theorem selectBackend_trace : (selectBackend s).trace = s.trace ++
      [.fmBind (variantOf s.params s.cfg.hwc s.cfg.pref) (dacArgument (variantOf s.params s.cfg.hwc s.cfg.pref) s.cfg.dac),
        .psgInit (psgMode s.params s.cfg.hwc), .fmReset, .psgReset] := rfl
@[simp] theorem selectBackend_results : (selectBackend s).results = s.results := rfl

/-! ### resetScheduler -/

@[simp] theorem resetScheduler_params : (resetScheduler s).params = s.params := rfl
@[simp] theorem resetScheduler_cfg : (resetScheduler s).cfg = s.cfg := rfl
@[simp] theorem resetScheduler_var : (resetScheduler s).var = s.var := rfl
@[simp] theorem resetScheduler_ratio : (resetScheduler s).ratio = s.ratio := rfl
@[simp] theorem resetScheduler_pt : (resetScheduler s).pt = 0 := rfl
@[simp] theorem resetScheduler_fs : (resetScheduler s).fs = 0 := rfl
@[simp] theorem resetScheduler_cl : (resetScheduler s).cl = 0 := rfl
@[simp] theorem resetScheduler_cr : (resetScheduler s).cr = 0 := rfl
@[simp] theorem resetScheduler_blen : (resetScheduler s).blen = 0 := rfl
@[simp] theorem resetScheduler_buf : (resetScheduler s).buf = s.buf := rfl
@[simp] theorem resetScheduler_phase : (resetScheduler s).phase = .running := rfl
@[simp] theorem resetScheduler_last : (resetScheduler s).last = 0 := rfl
@[simp] theorem resetScheduler_fault : (resetScheduler s).fault = s.fault := rfl
@[simp] theorem resetScheduler_fcause : (resetScheduler s).fcause = s.fcause := rfl
@[simp] theorem resetScheduler_inbox : (resetScheduler s).inbox = s.inbox := rfl
@[simp] theorem resetScheduler_answers : (resetScheduler s).answers = s.answers := rfl
@[simp] theorem resetScheduler_draws : (resetScheduler s).draws = s.draws := rfl
@[simp] theorem resetScheduler_trace : (resetScheduler s).trace = s.trace ++
      [.fmReset, .psgReset, .psgConfigure s.params.psgChmask s.cfg.psgpre s.params.psgVolmask] := rfl
@[simp] theorem resetScheduler_results : (resetScheduler s).results = s.results := rfl

/-! ### closeFrame -/

@[simp] theorem closeFrame_params (f : Word) (k : Walk) : (closeFrame f k s).params = s.params := rfl
@[simp] theorem closeFrame_cfg (f : Word) (k : Walk) : (closeFrame f k s).cfg = s.cfg := rfl
@[simp] theorem closeFrame_var (f : Word) (k : Walk) : (closeFrame f k s).var = s.var := rfl
@[simp] theorem closeFrame_ratio (f : Word) (k : Walk) : (closeFrame f k s).ratio = s.ratio := rfl
@[simp] theorem closeFrame_pt (f : Word) (k : Walk) : (closeFrame f k s).pt = BitVec.ofNat 32 (k.t - f.toNat) := rfl
@[simp] theorem closeFrame_fs (f : Word) (k : Walk) : (closeFrame f k s).fs = BitVec.ofNat 32 (k.t - f.toNat) := rfl
@[simp] theorem closeFrame_cl (f : Word) (k : Walk) : (closeFrame f k s).cl = k.pl := rfl
@[simp] theorem closeFrame_cr (f : Word) (k : Walk) : (closeFrame f k s).cr = k.pr := rfl
@[simp] theorem closeFrame_blen (f : Word) (k : Walk) : (closeFrame f k s).blen = 0 := rfl
@[simp] theorem closeFrame_buf (f : Word) (k : Walk) : (closeFrame f k s).buf = s.buf := rfl
@[simp] theorem closeFrame_phase (f : Word) (k : Walk) : (closeFrame f k s).phase = s.phase := rfl
@[simp] theorem closeFrame_last (f : Word) (k : Walk) : (closeFrame f k s).last = 0 := rfl
@[simp] theorem closeFrame_fault (f : Word) (k : Walk) : (closeFrame f k s).fault = s.fault := rfl
@[simp] theorem closeFrame_fcause (f : Word) (k : Walk) : (closeFrame f k s).fcause = s.fcause := rfl
@[simp] theorem closeFrame_inbox (f : Word) (k : Walk) : (closeFrame f k s).inbox = s.inbox := rfl
@[simp] theorem closeFrame_answers (f : Word) (k : Walk) : (closeFrame f k s).answers = s.answers := rfl
@[simp] theorem closeFrame_draws (f : Word) (k : Walk) : (closeFrame f k s).draws = s.draws := rfl
@[simp] theorem closeFrame_trace (f : Word) (k : Walk) :
    (closeFrame f k s).trace = s.trace ++ k.calls ++ [.rsEndFrame f] := rfl
@[simp] theorem closeFrame_results (f : Word) (k : Walk) : (closeFrame f k s).results = s.results := rfl

/-! ### loadLayout -/

@[simp] theorem loadLayout_params (b : List Byte) : (loadLayout b s).params = s.params := rfl
@[simp] theorem loadLayout_cfg (b : List Byte) : (loadLayout b s).cfg = s.cfg := rfl
@[simp] theorem loadLayout_var (b : List Byte) : (loadLayout b s).var = s.var := rfl
@[simp] theorem loadLayout_ratio (b : List Byte) : (loadLayout b s).ratio = s.ratio := rfl
@[simp] theorem loadLayout_pt (b : List Byte) : (loadLayout b s).pt = fsPart s.params s.var b := rfl
@[simp] theorem loadLayout_fs (b : List Byte) : (loadLayout b s).fs = fsPart s.params s.var b := rfl
@[simp] theorem loadLayout_cl (b : List Byte) : (loadLayout b s).cl = s.cl := rfl
@[simp] theorem loadLayout_cr (b : List Byte) : (loadLayout b s).cr = s.cr := rfl
@[simp] theorem loadLayout_blen (b : List Byte) : (loadLayout b s).blen = s.blen := rfl
@[simp] theorem loadLayout_buf (b : List Byte) : (loadLayout b s).buf = s.buf := rfl
@[simp] theorem loadLayout_phase (b : List Byte) : (loadLayout b s).phase = s.phase := rfl
@[simp] theorem loadLayout_last (b : List Byte) : (loadLayout b s).last = 0 := rfl
@[simp] theorem loadLayout_fault (b : List Byte) : (loadLayout b s).fault = s.fault := rfl
@[simp] theorem loadLayout_fcause (b : List Byte) : (loadLayout b s).fcause = s.fcause := rfl
@[simp] theorem loadLayout_inbox (b : List Byte) : (loadLayout b s).inbox = s.inbox := rfl
@[simp] theorem loadLayout_answers (b : List Byte) : (loadLayout b s).answers = s.answers := rfl
@[simp] theorem loadLayout_draws (b : List Byte) : (loadLayout b s).draws = s.draws := rfl
@[simp] theorem loadLayout_trace (b : List Byte) : (loadLayout b s).trace = s.trace ++
      [.fmLoadState (fmPart s.params s.var b), .psgLoadState (psgPart s.params s.var b)] := rfl
@[simp] theorem loadLayout_results (b : List Byte) : (loadLayout b s).results = s.results := rfl

end Sys2Proof.Machine
end

