-- ==== Sys2Proof/Laws/Ops.lean ====
section
/-! SUPPORT. What the shared operations can do, said once: a command (`runCommand`), the advance step (`advance`,
`present`), and going on after a part of a command (`andThen`). -/

namespace Sys2Proof.Machine

/-! ### A command -/

/-- A faulted block refuses every command. -/
theorem runCommand_faulted {check : State → Option Cause} {body : State → Attempt} {s : State}
    (h : s.fault = true) : runCommand check body s = .next s := by
  simp [runCommand, h]

/-- A failed check raises its cause before anything is done. -/
theorem runCommand_checked {check : State → Option Cause} {body : State → Attempt} {s : State} {c : Cause}
    (h : s.fault = false) (hc : check s = some c) : runCommand check body s = .next (raiseFault c s) := by
  simp [runCommand, h, hc]

/-- A command whose checks pass and whose execution completes. -/
theorem runCommand_ok {check : State → Option Cause} {body : State → Attempt} {s s' : State}
    (h : s.fault = false) (hc : check s = none) (hb : body s = .ok s') : runCommand check body s = .next s' := by
  simp [runCommand, h, hc, hb]

/-- A command whose execution raises a fault. -/
theorem runCommand_error {check : State → Option Cause} {body : State → Attempt} {s s' : State} {c : Cause}
    (h : s.fault = false) (hc : check s = none) (hb : body s = .error (c, s')) :
    runCommand check body s = .next (raiseFaultDuring c s') := by
  simp [runCommand, h, hc, hb]

/-- Everything a command can do: it always answers a next state, which is one of four. -/
theorem runCommand_cases (check : State → Option Cause) (body : State → Attempt) (s : State) :
    ∃ t, runCommand check body s = .next t ∧
      ((s.fault = true ∧ t = s) ∨
        (s.fault = false ∧ ∃ c, check s = some c ∧ t = raiseFault c s) ∨
        (s.fault = false ∧ check s = none ∧ body s = .ok t) ∨
        (s.fault = false ∧ check s = none ∧ ∃ c s', body s = .error (c, s') ∧ t = raiseFaultDuring c s')) := by
  cases hf : s.fault
  · cases hc : check s with
    | some c => exact ⟨_, runCommand_checked hf hc, .inr (.inl ⟨rfl, c, rfl, rfl⟩)⟩
    | none =>
      cases hb : body s with
      | ok t => exact ⟨_, runCommand_ok hf hc hb, .inr (.inr (.inl ⟨rfl, rfl, rfl⟩))⟩
      | error e => exact ⟨_, runCommand_error hf hc hb, .inr (.inr (.inr ⟨rfl, rfl, e.1, e.2, rfl, rfl⟩))⟩
  · exact ⟨s, runCommand_faulted hf, .inl ⟨rfl, rfl⟩⟩

/-- The state of a next outcome is determined. -/
theorem next_inj {s t : State} : (Host.Outcome.next s : Out) = .next t ↔ s = t := by
  constructor
  · intro h; injection h
  · rintro rfl; rfl

/-! ### The advance step -/

/-- Nothing is called and nothing written when t is already covered (R98). -/
theorem advance_covered {t : Word} {s : State} (h : t.toNat ≤ s.pt.toNat) : advance t s = .ok s := by
  simp [advance, Nat.not_lt.2 h]

/-- The owed samples are generated when they fit (R98). -/
theorem advance_generates {t : Word} {s : State} (h : s.pt.toNat < t.toNat)
    (hb : s.blen + owed t s ≤ s.params.bufCap) (hc : s.pt.toNat + owed t s * cycles s.ratio ≤ u32Max) :
    advance t s = .ok (generate (owed t s) s) := by
  simp [advance, h, bufferOverflows, counterOverflows, Nat.not_lt.2 hb, Nat.not_lt.2 hc]

/-- The owed samples do not fit the buffer (R150): no call. -/
theorem advance_bufferOverflow {t : Word} {s : State} (h : s.pt.toNat < t.toNat)
    (hb : s.params.bufCap < s.blen + owed t s) : advance t s = .error (.bufferOverflow, s) := by
  simp [advance, h, bufferOverflows, hb]

/-- The owed samples fit the buffer but take S.PT beyond u32 (R151): no call. -/
theorem advance_counterOverflow {t : Word} {s : State} (h : s.pt.toNat < t.toNat)
    (hb : s.blen + owed t s ≤ s.params.bufCap) (hc : u32Max < s.pt.toNat + owed t s * cycles s.ratio) :
    advance t s = .error (.counterOverflow, s) := by
  simp [advance, h, bufferOverflows, counterOverflows, Nat.not_lt.2 hb, hc]

/-- Everything an advance can do (R98). -/
theorem advance_cases (t : Word) (s : State) :
    (t.toNat ≤ s.pt.toNat ∧ advance t s = .ok s) ∨
      (s.pt.toNat < t.toNat ∧ s.params.bufCap < s.blen + owed t s ∧ advance t s = .error (.bufferOverflow, s)) ∨
      (s.pt.toNat < t.toNat ∧ s.blen + owed t s ≤ s.params.bufCap ∧
        u32Max < s.pt.toNat + owed t s * cycles s.ratio ∧ advance t s = .error (.counterOverflow, s)) ∨
      (s.pt.toNat < t.toNat ∧ s.blen + owed t s ≤ s.params.bufCap ∧
        s.pt.toNat + owed t s * cycles s.ratio ≤ u32Max ∧ advance t s = .ok (generate (owed t s) s)) := by
  rcases Nat.lt_or_ge s.pt.toNat t.toNat with h | h
  · rcases Nat.lt_or_ge s.params.bufCap (s.blen + owed t s) with hb | hb
    · exact .inr (.inl ⟨h, hb, advance_bufferOverflow h hb⟩)
    · rcases Nat.lt_or_ge u32Max (s.pt.toNat + owed t s * cycles s.ratio) with hc | hc
      · exact .inr (.inr (.inl ⟨h, hb, hc, advance_counterOverflow h hb hc⟩))
      · exact .inr (.inr (.inr ⟨h, hb, hc, advance_generates h hb hc⟩))
  · exact .inl ⟨h, advance_covered h⟩

/-! ### Going on -/

@[simp] theorem andThen_ok (s : State) (k : State → Attempt) : andThen (.ok s) k = k s := rfl

@[simp] theorem andThen_error (e : Cause × State) (k : State → Attempt) : andThen (.error e) k = .error e := rfl

end Sys2Proof.Machine
end

