-- ==== Sys2Proof/Laws/Mixer.lean ====
section
/-! SUPPORT. What one iteration of the walk does, and what the whole walk comes to: how far it runs (R114, R115), the
calls it makes in closed form (R113, R116), and where it stops on an overflow (R152). -/

namespace Sys2Proof.Machine

/-- A pair whose channels are amplified values or 0 (R124). -/
def Emitted (p : Pair) : Prop :=
  -21474836 ≤ p.l.toInt ∧ p.l.toInt ≤ 21474836 ∧ -21474836 ≤ p.r.toInt ∧ p.r.toInt ≤ 21474836

theorem emitted_emit {pre : S32} {p : Pair} (h : Amplifiable pre p) : Emitted (emit pre p) := by
  have hl := tdiv_hundred_bound h.1
  have hr := tdiv_hundred_bound h.2
  have el : (emit pre p).l.toInt = tdiv (p.l.toInt * pre.toInt) 100 :=
    toInt_ofInt_of_inS32 ((inS32_iff _).2 (by omega))
  have er : (emit pre p).r.toInt = tdiv (p.r.toInt * pre.toInt) 100 :=
    toInt_ofInt_of_inS32 ((inS32_iff _).2 (by omega))
  unfold Emitted
  omega

/-! ### One iteration -/

/-- One iteration on a pair that can be amplified, from an amplified carry: its delta is submitted (R111 to R113). -/
theorem walkPair_some {w : WalkInput} {k : Walk} (h : Amplifiable w.pre (readPair w.buf k.i))
    (hp : Emitted ⟨k.pl, k.pr⟩) :
    walkPair w k =
      some { t := k.t + w.step, i := k.i + 1,
             pl := (emit w.pre (readPair w.buf k.i)).l, pr := (emit w.pre (readPair w.buf k.i)).r,
             calls := k.calls ++
               [submission w.hq k.t ((emit w.pre (readPair w.buf k.i)).l - k.pl)
                 ((emit w.pre (readPair w.buf k.i)).r - k.pr)] } := by
  have he := emitted_emit h
  unfold Emitted at he hp
  have hl : delta (emit w.pre (readPair w.buf k.i)).l k.pl = some ((emit w.pre (readPair w.buf k.i)).l - k.pl) :=
    delta_of_fits ((inS32_iff _).2 (by dsimp only at hp; omega))
  have hr : delta (emit w.pre (readPair w.buf k.i)).r k.pr = some ((emit w.pre (readPair w.buf k.i)).r - k.pr) :=
    delta_of_fits ((inS32_iff _).2 (by dsimp only at hp; omega))
  unfold emit at hl hr
  simp only [walkPair, amp_of_fits h.1, amp_of_fits h.2, hl, hr, emit]

/-- A pair that cannot be amplified stops the walk before its delta is submitted (R152). -/
theorem walkPair_none {w : WalkInput} {k : Walk} (h : ¬ Amplifiable w.pre (readPair w.buf k.i)) :
    walkPair w k = none := by
  unfold walkPair
  rcases Decidable.not_and_iff_or_not.1 h with h | h
  · rw [amp_of_not_fits (by simpa using h)]
  · rw [amp_of_not_fits (x := (readPair w.buf k.i).r) (by simpa using h)]
    split <;> simp_all

/-- Whatever an iteration submits, the walk moves on by one pair and one ratio, and makes one call. -/
theorem walkPair_moves {w : WalkInput} {k k' : Walk} (h : walkPair w k = some k') :
    k'.t = k.t + w.step ∧ k'.i = k.i + 1 ∧
      ∃ dl dr, k'.calls = k.calls ++ [submission w.hq k.t dl dr] := by
  unfold walkPair at h
  split at h
  · split at h
    · cases h; exact ⟨rfl, rfl, _, _, rfl⟩
    · cases h
  · cases h

/-! ### The whole walk -/

/-- How far a walk that completes has run (R115): a whole number of ratios, to F or beyond when it had the iterations,
and not a ratio beyond F unless it began there. -/
theorem walkWhile_runs {w : WalkInput} {fuel : Nat} {k k' : Walk} (h : walkWhile w fuel k = .ok k') :
    ∃ m, k'.t = k.t + m * w.step ∧ k'.i = k.i + m ∧
      (0 < w.step → w.frame - k.t ≤ fuel → w.frame ≤ k'.t) ∧
      (k'.t < w.frame + w.step ∨ m = 0) ∧ (w.frame ≤ k.t → m = 0) ∧ (m = 0 → k' = k) := by
  induction fuel generalizing k with
  | zero =>
    simp only [walkWhile, Except.ok.injEq] at h
    subst h
    exact ⟨0, by simp, rfl, by omega, .inr rfl, fun _ => rfl, fun _ => rfl⟩
  | succ fuel ih =>
    unfold walkWhile at h
    split at h
    · rename_i hlt
      split at h
      · rename_i k1 h1
        obtain ⟨ht, hi, -⟩ := walkPair_moves h1
        obtain ⟨m, mt, mi, mf, ml, mz, me⟩ := ih h
        refine ⟨m + 1, ?_, by omega, ?_, .inl ?_, by omega, by omega⟩
        · rw [mt, ht, Nat.succ_mul]; omega
        · intro hs hfuel; exact mf hs (by omega)
        · rcases ml with ml | rfl
          · exact ml
          · rw [me rfl, ht]; omega
      · cases h
    · rename_i hge
      cases h
      exact ⟨0, by simp, rfl, by omega, .inr rfl, fun _ => rfl, fun _ => rfl⟩

/-- The pairs n iterations from k read. -/
def nextPairs (w : WalkInput) (k : Walk) (n : Nat) : List Pair :=
  (List.range n).map (fun j => readPair w.buf (k.i + j))

theorem nextPairs_succ (w : WalkInput) (k k' : Walk) (n : Nat) (h : k'.i = k.i + 1) :
    nextPairs w k (n + 1) = readPair w.buf k.i :: nextPairs w k' n := by
  simp only [nextPairs, List.range_succ_eq_map, List.map_cons, List.map_map, Nat.add_zero, h]
  congr 1
  apply List.map_congr_left
  intro j _
  simp only [Function.comp]
  congr 1
  omega

/-- Where the walk stands after the pairs ps, none of which overflows, in closed form. -/
def walkedTo (w : WalkInput) (k : Walk) (ps : List Pair) : Walk :=
  let es := ps.map (emit w.pre)
  { t := k.t + ps.length * w.step
    i := k.i + ps.length
    pl := (es.getLastD ⟨k.pl, k.pr⟩).l
    pr := (es.getLastD ⟨k.pl, k.pr⟩).r
    calls := k.calls ++ submissions w.hq w.step k.t ⟨k.pl, k.pr⟩ es }

/-- One iteration in closed form, followed by more of them. -/
theorem walkedTo_cons (w : WalkInput) (k : Walk) (p : Pair) (ps : List Pair) :
    walkedTo w k (p :: ps) = walkedTo w (walkedTo w k [p]) ps := by
  have ht : k.t + (ps.length + 1) * w.step = k.t + 1 * w.step + ps.length * w.step := by
    rw [Nat.succ_mul, Nat.one_mul]; omega
  have hi : k.i + (ps.length + 1) = k.i + 1 + ps.length := by omega
  simp only [walkedTo, submissions, List.map_cons, List.map_nil, List.length_cons, List.length_nil,
    List.getLastD_cons, List.getLastD_nil, List.append_assoc, List.singleton_append, Nat.zero_add, ht, hi,
    Nat.one_mul]

/-- One iteration on a pair that can be amplified, in closed form. -/
theorem walkPair_walkedTo {w : WalkInput} {k : Walk} (h : Amplifiable w.pre (readPair w.buf k.i))
    (hp : Emitted ⟨k.pl, k.pr⟩) : walkPair w k = some (walkedTo w k [readPair w.buf k.i]) := by
  rw [walkPair_some h hp]
  simp [walkedTo, submissions]

theorem emitted_walkedTo_one {w : WalkInput} {k : Walk} (h : Amplifiable w.pre (readPair w.buf k.i)) :
    Emitted ⟨(walkedTo w k [readPair w.buf k.i]).pl, (walkedTo w k [readPair w.buf k.i]).pr⟩ := by
  simpa [walkedTo] using emitted_emit h

/-- n iterations that all can be amplified and all begin below F come to the closed form, and the walk goes on
from there. -/
theorem walkWhile_walks {w : WalkInput} (n fuel : Nat) {k : Walk} (hp : Emitted ⟨k.pl, k.pr⟩)
    (ht : ∀ j, j < n → k.t + j * w.step < w.frame)
    (ha : ∀ p ∈ nextPairs w k n, Amplifiable w.pre p) :
    walkWhile w (n + fuel) k = walkWhile w fuel (walkedTo w k (nextPairs w k n)) := by
  induction n generalizing k with
  | zero => simp [nextPairs, walkedTo, submissions]
  | succ n ih =>
    have h0 : k.t < w.frame := by simpa using ht 0 (by omega)
    have hcons := nextPairs_succ w k (walkedTo w k [readPair w.buf k.i]) n (by simp [walkedTo])
    rw [hcons] at ha ⊢
    have ha0 := ha _ (List.mem_cons_self ..)
    rw [show n + 1 + fuel = (n + fuel) + 1 by omega, walkWhile, if_pos h0, walkPair_walkedTo ha0 hp]
    dsimp only
    rw [walkedTo_cons w k _ (nextPairs w _ n), ih (emitted_walkedTo_one ha0)]
    · intro j hj
      have := ht (j + 1) (by omega)
      simp only [walkedTo, List.length_singleton]
      rw [Nat.succ_mul] at this
      omega
    · exact fun p hpm => ha p (List.mem_cons_of_mem _ hpm)

/-- The walk that ends: n pairs below F, F reached after them (R114, R115). -/
theorem walkWhile_ok {w : WalkInput} {n fuel : Nat} {k : Walk} (hp : Emitted ⟨k.pl, k.pr⟩) (hf : n ≤ fuel)
    (ht : ∀ j, j < n → k.t + j * w.step < w.frame) (hend : w.frame ≤ k.t + n * w.step)
    (ha : ∀ p ∈ nextPairs w k n, Amplifiable w.pre p) :
    walkWhile w fuel k = .ok (walkedTo w k (nextPairs w k n)) := by
  obtain ⟨m, rfl⟩ : ∃ m, fuel = n + m := ⟨fuel - n, by omega⟩
  rw [walkWhile_walks n m hp ht ha]
  have hl : (nextPairs w k n).length = n := by simp [nextPairs]
  cases m with
  | zero => rfl
  | succ m =>
    rw [walkWhile, if_neg]
    simp only [walkedTo, hl]
    omega

/-- The walk that overflows: n pairs pass, the next begins below F and cannot be amplified (R152). -/
theorem walkWhile_overflow {w : WalkInput} {n fuel : Nat} {k : Walk} (hp : Emitted ⟨k.pl, k.pr⟩) (hf : n < fuel)
    (ht : ∀ j, j ≤ n → k.t + j * w.step < w.frame)
    (ha : ∀ p ∈ nextPairs w k n, Amplifiable w.pre p)
    (hn : ¬ Amplifiable w.pre (readPair w.buf (k.i + n))) :
    walkWhile w fuel k = .error (walkedTo w k (nextPairs w k n)) := by
  obtain ⟨m, rfl⟩ : ∃ m, fuel = n + (m + 1) := ⟨fuel - n - 1, by omega⟩
  rw [walkWhile_walks n (m + 1) hp (fun j hj => ht j (by omega)) ha]
  have hl : (nextPairs w k n).length = n := by simp [nextPairs]
  rw [walkWhile, if_pos (by simp only [walkedTo, hl]; exact ht n (Nat.le_refl n)),
    walkPair_none (by simpa [walkedTo, hl] using hn)]

end Sys2Proof.Machine
end

