-- ==== Sys2Proof/Laws/Exec.lean ====
section
/-! SUPPORT. Every command is its check and its execution (`exec_eq`), and everything `exec` can do (`exec_cases`). -/

namespace Sys2Proof.Machine

/-- The check a command makes first (R154 groups 2 and 3). -/
def checkOf : Instr → State → Option Cause
  | .select => selectCheck
  | .reset => resetCheck
  | .advance cyc => accessCheck cyc
  | .fmw cyc _ _ => accessCheck cyc
  | .fmr cyc _ => readCheck cyc
  | .mix f => mixCheck f
  | .save => saveCheck
  | .load b => loadCheck b

/-- The execution of a command whose check has passed. -/
def bodyOf : Instr → State → Attempt
  | .select => selectBody
  | .reset => resetBody
  | .advance cyc => present cyc
  | .fmw cyc a d => writeBody cyc a d
  | .fmr cyc a => readBody cyc a
  | .mix f => mixBody f
  | .save => saveBody
  | .load b => loadBody b

theorem exec_eq (i : Instr) (s : State) : exec i s = runCommand (checkOf i) (bodyOf i) s := by
  cases i <;> rfl

/-- Everything a command can do: it always answers a next state, which is one of four. -/
theorem exec_cases (i : Instr) (s : State) :
    ∃ t, exec i s = .next t ∧
      ((s.fault = true ∧ t = s) ∨
        (s.fault = false ∧ ∃ c, checkOf i s = some c ∧ t = raiseFault c s) ∨
        (s.fault = false ∧ checkOf i s = none ∧ bodyOf i s = .ok t) ∨
        (s.fault = false ∧ checkOf i s = none ∧ ∃ c s', bodyOf i s = .error (c, s') ∧ t = raiseFaultDuring c s')) := by
  rw [exec_eq]
  exact runCommand_cases _ _ _

/-- A command whose checks pass and whose execution completes. -/
theorem exec_ok {i : Instr} {s t : State} (h : s.fault = false) (hc : checkOf i s = none) (hb : bodyOf i s = .ok t) :
    exec i s = .next t := by
  rw [exec_eq]
  exact runCommand_ok h hc hb

/-- A failed check raises its cause before anything is done. -/
theorem exec_checked {i : Instr} {s : State} {c : Cause} (h : s.fault = false) (hc : checkOf i s = some c) :
    exec i s = .next (raiseFault c s) := by
  rw [exec_eq]
  exact runCommand_checked h hc

/-- A command whose execution raises a fault. -/
theorem exec_error {i : Instr} {s s' : State} {c : Cause} (h : s.fault = false) (hc : checkOf i s = none)
    (hb : bodyOf i s = .error (c, s')) : exec i s = .next (raiseFaultDuring c s') := by
  rw [exec_eq]
  exact runCommand_error h hc hb

/-! ### What a passed check says -/

theorem selectCheck_none {s : State} (h : selectCheck s = none) :
    s.phase ≠ .selected ∧ (s.phase = .running → s.blen = 0) := by
  unfold selectCheck at h
  split at h
  · cases h
  · rename_i h1
    split at h
    · cases h
    · rename_i h2
      exact ⟨h1, fun hr => by_contra fun hb => h2 ⟨hr, hb⟩⟩

theorem resetCheck_none {s : State} (h : resetCheck s = none) : s.phase ≠ .off := by
  unfold resetCheck at h
  split at h
  · cases h
  · assumption

theorem accessCheck_none {cyc : Word} {s : State} :
    accessCheck cyc s = none ↔ s.phase = .running ∧ s.last.toNat ≤ cyc.toNat := by
  unfold accessCheck
  by_cases h1 : s.phase = .running <;> by_cases h2 : cyc.toNat < s.last.toNat <;> simp [h1, h2]
  omega

theorem readCheck_none {cyc : Word} {s : State} :
    readCheck cyc s = none ↔ s.phase = .running ∧ s.var ≠ .simplified ∧ s.last.toNat ≤ cyc.toNat := by
  unfold readCheck
  by_cases h1 : s.phase = .running <;> by_cases h3 : s.var = .simplified <;>
    by_cases h2 : cyc.toNat < s.last.toNat <;> simp [h1, h2, h3]
  omega

theorem mixCheck_none {f : Word} {s : State} :
    mixCheck f s = none ↔ s.phase = .running ∧ f ≠ 0 ∧ s.last.toNat ≤ f.toNat := by
  unfold mixCheck
  by_cases h1 : s.phase = .running <;> by_cases h3 : f = 0 <;>
    by_cases h2 : f.toNat < s.last.toNat <;> simp [h1, h2, h3]
  omega

theorem saveCheck_none {s : State} : saveCheck s = none ↔ s.phase = .running ∧ s.blen = 0 := by
  unfold saveCheck
  by_cases h1 : s.phase = .running <;> by_cases h2 : s.blen = 0 <;> simp [h1, h2]

theorem loadCheck_none {b : List Byte} {s : State} :
    loadCheck b s = none ↔ s.phase = .running ∧ s.blen = 0 ∧
      (hasDisc s.params s.var = true → b.head? = some (disc s.var)) ∧ b.length = layoutLen s.params s.var := by
  unfold loadCheck
  by_cases h1 : s.phase = .running <;> by_cases h2 : s.blen = 0 <;>
    by_cases h3 : hasDisc s.params s.var = true <;> by_cases h4 : b.head? = some (disc s.var) <;>
    by_cases h5 : b.length = layoutLen s.params s.var <;> simp [h1, h2, h3, h4, h5]

end Sys2Proof.Machine
end

