-- ==== Sys2Proof/Laws/Scheduler.lean ====
section
/-! SUPPORT. The advance with room, in the terms of Safety.lean, and the executions of ADVANCE, FMW, FMR and of MIX's
first two steps that build on it. -/

namespace Sys2Proof.Machine

/-! ### The state after an advance that has room -/

theorem advanced_generates {t : Word} {s : State} (h : s.pt.toNat < t.toNat) :
    advanced t s = generate (owed t s) s := if_pos h

theorem advanced_covered {t : Word} {s : State} (h : t.toNat ≤ s.pt.toNat) : advanced t s = s :=
  if_neg (Nat.not_lt.2 h)

/-- An advance that has room completes (R98). -/
theorem advance_of_room {t : Word} {s : State} (h : Room t s) : advance t s = .ok (advanced t s) := by
  rcases Nat.lt_or_ge s.pt.toNat t.toNat with hlt | hge
  · rw [advanced_generates hlt]
    exact advance_generates hlt (h hlt).1 (h hlt).2
  · rw [advanced_covered hge]
    exact advance_covered hge

/-- An advance that completes had room. -/
theorem room_of_advance {t : Word} {s s' : State} (h : advance t s = .ok s') : Room t s ∧ s' = advanced t s := by
  rcases advance_cases t s with ⟨h1, h2⟩ | ⟨h1, h2, h3⟩ | ⟨h1, h2, h3, h4⟩ | ⟨h1, h2, h3, h4⟩
  · rw [h2] at h
    cases h
    exact ⟨fun hlt => absurd hlt (Nat.not_lt.2 h1), (advanced_covered h1).symm⟩
  · rw [h3] at h; cases h
  · rw [h4] at h; cases h
  · rw [h4] at h
    cases h
    exact ⟨fun _ => ⟨h2, h3⟩, (advanced_generates h1).symm⟩

/-- An advance that faults has changed nothing and made no call (R150, R151). -/
theorem advance_error {t : Word} {s s' : State} {c : Cause} (h : advance t s = .error (c, s')) :
    s' = s ∧ (c = .bufferOverflow ∨ c = .counterOverflow) := by
  rcases advance_cases t s with ⟨h1, h2⟩ | ⟨h1, h2, h3⟩ | ⟨h1, h2, h3, h4⟩ | ⟨h1, h2, h3, h4⟩
  · rw [h2] at h; cases h
  · rw [h3] at h; cases h; exact ⟨rfl, .inl rfl⟩
  · rw [h4] at h; cases h; exact ⟨rfl, .inr rfl⟩
  · rw [h4] at h; cases h

/-- An advance writes only the buffer, its write position, S.PT, and what stands around the block. -/
theorem advanced_frame (t : Word) (s : State) :
    (advanced t s).params = s.params ∧ (advanced t s).cfg = s.cfg ∧ (advanced t s).var = s.var ∧
      (advanced t s).ratio = s.ratio ∧ (advanced t s).fs = s.fs ∧ (advanced t s).cl = s.cl ∧
      (advanced t s).cr = s.cr ∧ (advanced t s).phase = s.phase ∧ (advanced t s).last = s.last ∧
      (advanced t s).fault = s.fault ∧ (advanced t s).fcause = s.fcause ∧ (advanced t s).inbox = s.inbox ∧
      (advanced t s).results = s.results := by
  unfold advanced
  split <;> simp

/-- The calls an advance makes. -/
theorem advanced_trace (t : Word) (s : State) : (advanced t s).trace = s.trace ++ generateCall t s := by
  unfold advanced generateCall
  split <;> simp

/-- S.PT after an advance with room: nothing wraps. -/
theorem advanced_pt {t : Word} {s : State} (hr : Room t s) (h : s.pt.toNat < t.toNat) :
    (advanced t s).pt.toNat = s.pt.toNat + owed t s * cycles s.ratio := by
  have := (hr h).2
  rw [advanced_generates h]
  simp [u32Max] at this ⊢
  omega

/-- Noting a timestamp makes no difference to what an advance needs. -/
theorem room_noteStamp {cyc t : Word} {s : State} : Room t (noteStamp cyc s) ↔ Room t s := Iff.rfl

/-! ### The executions that advance -/

theorem present_of_room {cyc : Word} {s : State} (h : Room cyc s) :
    present cyc s = .ok (advanced cyc (noteStamp cyc s)) := advance_of_room h

theorem writeBody_of_room {cyc : Word} {a d : Byte} {s : State} (h : Room cyc s) :
    writeBody cyc a d s = .ok (record (.fmWrite a d) (advanced cyc (noteStamp cyc s))) := by
  simp [writeBody, present_of_room h]

theorem readBody_of_room {cyc : Word} {a : Byte} {s : State} (h : Room cyc s) :
    readBody cyc a s =
      .ok (giveBack (.value (readAnswer a (advanced cyc (noteStamp cyc s))))
        (callRead a (advanced cyc (noteStamp cyc s)))) := by
  simp [readBody, present_of_room h]

/-- Steps 1 and 2 of MIX. -/
theorem mixBody_of_room {f : Word} {s : State} (h : Room f s) :
    mixBody f s = walkBody f (advanced f (record (.psgEndFrame f) s)) := by
  have hr : Room f (record (.psgEndFrame f) s) := h
  simp [mixBody, advance_of_room hr]

/-- An execution that ends in a fault of the advance. -/
theorem andThen_of_error {a : Attempt} {e : Cause × State} {k : State → Attempt} (h : a = .error e) :
    andThen a k = .error e := by
  rw [h, andThen_error]

/-- What going on can come to. -/
theorem andThen_cases {a : Attempt} {k : State → Attempt} {r : Attempt} (h : andThen a k = r) :
    (∃ s, a = .ok s ∧ k s = r) ∨ (∃ e, a = .error e ∧ r = .error e) := by
  cases a with
  | ok s => exact .inl ⟨s, rfl, h⟩
  | error e => exact .inr ⟨e, rfl, h.symm⟩

end Sys2Proof.Machine
end

