-- ==== Sys2Proof/Laws/Step.lean ====
section
/-! SUPPORT. Everything one step can do, said once, and the two ways a command ends: completed, or not at all. -/

namespace Sys2Proof.Machine

/-- A faulted block takes no command (R157). -/
theorem exec_of_faulted {i : Instr} {s : State} (h : s.fault = true) : exec i s = .next s := by
  rw [exec_eq]
  exact runCommand_faulted h

/-- A command always answers a next state: no meaning ends in a fault or a refusal of the model. -/
theorem exec_answers (i : Instr) (s : State) : ∃ t, exec i s = .next t := by
  obtain ⟨t, ht, -⟩ := exec_cases i s
  exact ⟨t, ht⟩

/-- A command that leaves the block without a fault has passed its checks and completed its execution. -/
theorem completed_of_exec {i : Instr} {s t : State} (hs : s.fault = false) (he : exec i s = .next t)
    (ht : t.fault = false) : checkOf i s = none ∧ bodyOf i s = .ok t := by
  obtain ⟨u, hu, h⟩ := exec_cases i s
  cases next_inj.1 (he.symm.trans hu)
  rcases h with ⟨h, -⟩ | ⟨-, c, -, rfl⟩ | ⟨-, hc, hb⟩ | ⟨-, -, c, s', -, rfl⟩
  · rw [hs] at h
    cases h
  · simp at ht
  · exact ⟨hc, hb⟩
  · simp at ht

/-- An illegal word on a block that is not faulted (R143). -/
theorem illegalCommand_of_ok {s : State} (h : s.fault = false) :
    illegalCommand s = .next (raiseFault .cmdIllegal s) := runCommand_checked h rfl

/-- An illegal word on a faulted block (R157). -/
theorem illegalCommand_of_faulted {s : State} (h : s.fault = true) : illegalCommand s = .next s :=
  runCommand_faulted h

/-- Every next state of a step: nothing was handed over, a configuration item was taken over, a command ran, or an
illegal word was met. -/
theorem step_cases {s t : State} (h : step s = .next t) :
    t = s ∨ (∃ c rest, t = { s with cfg := c, inbox := rest }) ∨
      (∃ i rest, decode s.inbox = .command i rest ∧ exec i { s with inbox := rest } = .next t) ∨
      ∃ why rest, decode s.inbox = .illegal why rest ∧ illegalCommand { s with inbox := rest } = .next t := by
  unfold step at h
  split at h
  · cases h
    exact .inl rfl
  · cases h
    exact .inr (.inl ⟨_, _, rfl⟩)
  · exact .inr (.inr (.inl ⟨_, _, ‹_›, h⟩))
  · exact .inr (.inr (.inr ⟨_, _, ‹_›, h⟩))
  · cases h
  · cases h

end Sys2Proof.Machine
end

