-- ==== Sys2Proof/Laws/Completed.lean ====
section
/-! SUPPORT. The pairs MIX walks as cells of the buffer, what the walk depends on, and everything a completed MIX says. -/

namespace Sys2Proof.Machine

/-- The pairs of a frame are the valid cells of the buffer after MIX's advance, in order (R114). -/
theorem framePairs_eq (f : Word) (s : State) :
    framePairs f s = (List.range (advanced f s).blen).map (readPair (advanced f s).buf) := by
  unfold framePairs
  rcases Nat.lt_or_ge s.pt.toNat f.toNat with h | h
  · rw [if_pos h, advanced_generates h]
    simp only [generate_blen, generate_buf]
    apply List.ext_getElem
    · simp
    · intro i h1 h2
      simp only [List.getElem_map, List.getElem_range]
      rcases Nat.lt_or_ge i s.blen with hi | hi
      · rw [List.getElem_append_left (by simpa using hi)]
        simp only [List.getElem_map, List.getElem_range]
        rw [readPair_writePairs_outside _ _ _ _ (.inl hi)]
      · rw [List.getElem_append_right (by simpa using hi)]
        simp only [List.length_append, List.length_map, List.length_range] at h1
        obtain ⟨j, rfl⟩ : ∃ j, i = s.blen + j := ⟨i - s.blen, by omega⟩
        rw [readPair_writePairs_inside _ _ _ _ (by omega)]
        simp
  · rw [if_neg (by omega), advanced_covered h]
    simp

theorem framePairs_length (f : Word) (s : State) : (framePairs f s).length = (advanced f s).blen := by
  rw [framePairs_eq]
  simp

/-- The walk depends on the buffer, the ratio, the configuration, the residual and the carry alone. -/
theorem walk_congr {f : Word} {s s' : State} (hb : s.buf = s'.buf) (hr : s.ratio = s'.ratio) (hc : s.cfg = s'.cfg)
    (hf : s.fs = s'.fs) (hl : s.cl = s'.cl) (hr' : s.cr = s'.cr) : walk f s = walk f s' := by
  simp [walk, walkInput, walkStart, hb, hr, hc, hf, hl, hr']

/-- Recording a call before an advance changes the trace alone. -/
theorem advanced_record (f : Word) (e : Event) (s : State) :
    advanced f (record e s) = { advanced f s with trace := s.trace ++ [e] ++ generateCall f s } := by
  unfold advanced generateCall
  rcases Nat.lt_or_ge s.pt.toNat f.toNat with h | h
  · rw [if_pos h, if_pos h, if_pos (by simpa using h)]
    rfl
  · rw [if_neg (by simpa using h), if_neg (by omega), if_neg (by omega)]
    simp [record]

/-- A MIX that completes from a live state: its frame length was in order, the samples had room, the walk ended, and
the state is the closed frame with the count handed back (R111). -/
theorem completed_of_mix {f : Word} {s t : State} (hl : s.Live) (he : exec (.mix f) s = .next t)
    (ht : t.fault = false) :
    f ≠ 0 ∧ s.last.toNat ≤ f.toNat ∧ Room f s ∧ ∃ k, walk f (advanced f s) = .ok k ∧
      t = giveBack (.count (countAnswer (closeFrame f k (advanced f (record (.psgEndFrame f) s)))))
        (callSamplesAvailable (closeFrame f k (advanced f (record (.psgEndFrame f) s)))) := by
  obtain ⟨hc, hb⟩ := completed_of_exec hl.1 he ht
  obtain ⟨-, h1, h2⟩ := mixCheck_none.1 hc
  rcases andThen_cases hb with ⟨s1, ha, hk⟩ | ⟨e, -, h⟩
  · obtain ⟨hr, rfl⟩ := room_of_advance ha
    refine ⟨h1, h2, hr, ?_⟩
    unfold walkBody at hk
    have hw : walk f (advanced f (record (.psgEndFrame f) s)) = walk f (advanced f s) := by
      apply walk_congr <;> rw [advanced_record]
    rw [hw] at hk
    split at hk
    · rename_i k hk'
      exact ⟨k, hk', by cases hk; rfl⟩
    · cases hk
  · cases h

/-- The pairs generated by two traces, one after the other. -/
theorem generatedPairs_append (a b : List Event) :
    generatedPairs (a ++ b) = generatedPairs a + generatedPairs b := by
  induction a with
  | nil => simp [generatedPairs]
  | cons e a ih =>
    cases e <;> simp [generatedPairs, ih]
    omega

/-- The deltas submitted by two traces, one after the other. -/
theorem submittedDeltas_append (a b : List Event) :
    submittedDeltas (a ++ b) = submittedDeltas a + submittedDeltas b := by
  induction a with
  | nil => simp [submittedDeltas]
  | cons e a ih => cases e <;> simp [submittedDeltas, ih] <;> omega

end Sys2Proof.Machine
end

