-- ==== Sys2Proof/Laws/Decode.lean ====
section
/-! SUPPORT. The fields of a packed command word, and every command word as a number (R70, R77). -/

namespace Sys2Proof

theorem packWord_toNat (d a : Byte) (op : BitVec 4) :
    (packWord d a op).toNat = d.toNat * 65536 + a.toNat * 256 + op.toNat := by
  have hd := d.isLt
  have ha := a.isLt
  have ho := op.isLt
  simp only [packWord, BitVec.toNat_append]
  rw [← Nat.shiftLeft_add_eq_or_of_lt (by omega), ← Nat.shiftLeft_add_eq_or_of_lt (by simp),
    ← Nat.shiftLeft_add_eq_or_of_lt (by omega), ← Nat.shiftLeft_add_eq_or_of_lt (by omega)]
  simp only [Nat.shiftLeft_eq, BitVec.toNat_ofNat]
  omega

/-- A field of a word as a number: `len` bits from bit `start`. -/
theorem field_toNat (w : Word) (start len : Nat) :
    (w.extractLsb' start len).toNat = w.toNat / 2 ^ start % 2 ^ len := by
  simp [BitVec.extractLsb'_toNat, Nat.shiftRight_eq_div_pow]

@[simp] theorem opField_packWord (d a : Byte) (op : BitVec 4) : opField (packWord d a op) = op := by
  apply BitVec.eq_of_toNat_eq
  rw [opField, field_toNat, packWord_toNat]
  have := op.isLt
  omega

@[simp] theorem rsv0Field_packWord (d a : Byte) (op : BitVec 4) : rsv0Field (packWord d a op) = 0 := by
  apply BitVec.eq_of_toNat_eq
  rw [rsv0Field, field_toNat, packWord_toNat]
  have := op.isLt
  simp
  omega

@[simp] theorem aField_packWord (d a : Byte) (op : BitVec 4) : aField (packWord d a op) = a := by
  apply BitVec.eq_of_toNat_eq
  rw [aField, field_toNat, packWord_toNat]
  have := op.isLt
  have := a.isLt
  omega

@[simp] theorem dField_packWord (d a : Byte) (op : BitVec 4) : dField (packWord d a op) = d := by
  apply BitVec.eq_of_toNat_eq
  rw [dField, field_toNat, packWord_toNat]
  have := op.isLt
  have := a.isLt
  have := d.isLt
  omega

@[simp] theorem rsv1Field_packWord (d a : Byte) (op : BitVec 4) : rsv1Field (packWord d a op) = 0 := by
  apply BitVec.eq_of_toNat_eq
  rw [rsv1Field, field_toNat, packWord_toNat]
  have := op.isLt
  have := a.isLt
  have := d.isLt
  simp
  omega

/-- A word is its five fields (R70). -/
theorem word_of_fields (w : Word) :
    w.toNat = (rsv1Field w).toNat * 16777216 + (dField w).toNat * 65536 + (aField w).toNat * 256 +
      (rsv0Field w).toNat * 16 + (opField w).toNat := by
  have := w.isLt
  simp only [rsv1Field, dField, aField, rsv0Field, opField, field_toNat]
  omega

/-- A word whose reserved fields are 0 is its other fields packed (R70). -/
theorem packWord_of_fields (w : Word) (h0 : rsv0Field w = 0) (h1 : rsv1Field w = 0) :
    packWord (dField w) (aField w) (opField w) = w := by
  apply BitVec.eq_of_toNat_eq
  have := word_of_fields w
  rw [h0, h1] at this
  rw [packWord_toNat]
  simp at this
  omega

/-- Every command word is packed from its operation code (R70, R77). -/
theorem commandWord_packed (i : Instr) : ∃ d a, i.commandWord = packWord d a i.opcode := by
  cases i <;> exact ⟨_, _, rfl⟩

/-- The command word of a command carries its operation code (R71). -/
@[simp] theorem opField_commandWord (i : Instr) : opField i.commandWord = i.opcode := by
  cases i <;> simp [Instr.commandWord, Instr.opcode]

end Sys2Proof
end

