-- ==== Sys2Proof/Laws/Frame.lean ====
section
/-! SUPPORT. What no execution of a command touches, and what an execution that ends in a fault leaves for fault entry:
the trace so far with no fault event in it, and nothing handed back. -/

namespace Sys2Proof.Machine

/-- What stands around the block's registers and no command writes. -/
def Untouched (s t : State) : Prop :=
  t.params = s.params ∧ t.cfg = s.cfg ∧ t.inbox = s.inbox ∧ t.fault = s.fault ∧ t.fcause = s.fcause

theorem Untouched.refl (s : State) : Untouched s s := ⟨rfl, rfl, rfl, rfl, rfl⟩

/-- The trace of t is that of s and calls after it, none of them a fault event. -/
def OnlyCalls (s t : State) : Prop :=
  ∃ es, t.trace = s.trace ++ es ∧ ∀ c, Event.fault c ∉ es

theorem OnlyCalls.refl (s : State) : OnlyCalls s s := ⟨[], by simp, by simp⟩

theorem advanced_untouched (t : Word) (s : State) : Untouched s (advanced t s) := by
  simp [Untouched, advanced_frame]

theorem advanced_onlyCalls (t : Word) (s : State) : OnlyCalls s (advanced t s) := by
  refine ⟨_, advanced_trace t s, ?_⟩
  unfold generateCall
  split <;> simp

/-- The calls of a walk are delta submissions. -/
theorem walkWhile_calls {w : WalkInput} {fuel : Nat} {k k' : Walk}
    (h : walkWhile w fuel k = .ok k' ∨ walkWhile w fuel k = .error k') :
    ∃ es, k'.calls = k.calls ++ es ∧ ∀ e ∈ es, ∃ t dl dr, e = submission w.hq t dl dr := by
  induction fuel generalizing k with
  | zero =>
    rcases h with h | h <;> cases h
    exact ⟨[], by simp, by simp⟩
  | succ n ih =>
    unfold walkWhile at h
    split at h
    · split at h
      · rename_i k1 h1
        obtain ⟨_, _, dl, dr, hc⟩ := walkPair_moves h1
        obtain ⟨es, he, hs⟩ := ih h
        refine ⟨submission w.hq k.t dl dr :: es, by rw [he, hc]; simp, ?_⟩
        intro e hm
        rcases List.mem_cons.1 hm with rfl | hm
        · exact ⟨_, _, _, rfl⟩
        · exact hs e hm
      · rcases h with h | h <;> cases h
        exact ⟨[], by simp, by simp⟩
    · rcases h with h | h <;> cases h
      exact ⟨[], by simp, by simp⟩

theorem submission_ne_fault (hq : Bool) (t : Nat) (dl dr : S32) (c : Cause) : Event.fault c ≠ submission hq t dl dr := by
  unfold submission
  split <;> simp

/-- MIX's walk only submits deltas. -/
theorem walk_calls {f : Word} {s : State} {k : Walk} (h : walk f s = .ok k ∨ walk f s = .error k) :
    ∀ c, Event.fault c ∉ k.calls := by
  obtain ⟨es, he, hs⟩ := walkWhile_calls h
  intro c hm
  rw [he] at hm
  simp only [walkStart, List.nil_append] at hm
  obtain ⟨t, dl, dr, e⟩ := hs _ hm
  exact submission_ne_fault _ _ _ _ _ e

/-- An execution that completes touches neither the configuration, the build, the host's items nor the fault
registers, and adds only calls to the trace. -/
theorem body_ok_frame {i : Instr} {s t : State} (h : bodyOf i s = .ok t) : Untouched s t ∧ OnlyCalls s t := by
  cases i with
  | select =>
    cases h
    exact ⟨⟨rfl, rfl, rfl, rfl, rfl⟩, _, rfl, by simp⟩
  | reset =>
    cases h
    exact ⟨⟨rfl, rfl, rfl, rfl, rfl⟩, _, rfl, by simp⟩
  | advance cyc =>
    obtain ⟨-, rfl⟩ := room_of_advance h
    exact ⟨advanced_untouched cyc (noteStamp cyc s), advanced_onlyCalls cyc (noteStamp cyc s)⟩
  | fmw cyc a d =>
    rcases andThen_cases h with ⟨u, hu, hk⟩ | ⟨e, -, he⟩
    · obtain ⟨-, rfl⟩ := room_of_advance hu
      cases hk
      obtain ⟨es, he, hn⟩ := advanced_onlyCalls cyc (noteStamp cyc s)
      refine ⟨advanced_untouched cyc (noteStamp cyc s), es ++ [.fmWrite a d], ?_, ?_⟩
      · simp [he]
      · simpa using hn
    · cases he
  | fmr cyc a =>
    rcases andThen_cases h with ⟨u, hu, hk⟩ | ⟨e, -, he⟩
    · obtain ⟨-, rfl⟩ := room_of_advance hu
      cases hk
      obtain ⟨es, he, hn⟩ := advanced_onlyCalls cyc (noteStamp cyc s)
      refine ⟨advanced_untouched cyc (noteStamp cyc s),
        es ++ [.fmRead a (readAnswer a (advanced cyc (noteStamp cyc s)))], ?_, ?_⟩
      · simp [he]
      · simpa using hn
    · cases he
  | mix f =>
    rcases andThen_cases h with ⟨u, hu, hk⟩ | ⟨e, -, he⟩
    · obtain ⟨-, rfl⟩ := room_of_advance hu
      obtain ⟨es, he, hn⟩ := advanced_onlyCalls f (record (.psgEndFrame f) s)
      unfold walkBody at hk
      split at hk
      · rename_i k hw
        cases hk
        refine ⟨advanced_untouched f (record (.psgEndFrame f) s),
          [.psgEndFrame f] ++ es ++ k.calls ++ [.rsEndFrame f, .rsSamplesAvailable
            (countAnswer (closeFrame f k (advanced f (record (.psgEndFrame f) s))))], ?_, ?_⟩
        · simp [he]
        · intro c
          have := walk_calls (.inl hw) c
          simp [hn c, this]
      · cases hk
    · cases he
  | save =>
    change saveBody s = _ at h
    unfold saveBody at h
    split at h
    · cases h
    · split at h
      · cases h
      · cases h
        refine ⟨⟨rfl, rfl, rfl, rfl, rfl⟩, [.fmSaveState (fmSaveAnswer s), .psgSaveState (psgSaveAnswer (callFmSave s))], ?_, by simp⟩
        simp
  | load b =>
    cases h
    exact ⟨⟨rfl, rfl, rfl, rfl, rfl⟩, _, rfl, by simp⟩

/-- The causes an execution can raise (R154 group 4), with the commands that raise them. -/
def RaisedDuring (i : Instr) (c : Cause) : Prop :=
  c = .bufferOverflow ∨ c = .counterOverflow ∨ c = .arithOverflow ∨ (c = .blobFormat ∧ i = .save)

/-- An execution that ends in a fault hands nothing back, touches nothing around the block's registers, and adds only
calls to the trace. -/
theorem body_error_frame {i : Instr} {s t : State} {c : Cause} (h : bodyOf i s = .error (c, t)) :
    RaisedDuring i c ∧ Untouched s t ∧ OnlyCalls s t ∧ t.results = s.results := by
  cases i with
  | select => cases h
  | reset => cases h
  | advance cyc =>
    obtain ⟨rfl, hc⟩ := advance_error h
    exact ⟨by rcases hc with rfl | rfl <;> simp [RaisedDuring], .refl s, .refl s, rfl⟩
  | fmw cyc a d =>
    rcases andThen_cases h with ⟨u, -, hk⟩ | ⟨e, he, hr⟩
    · cases hk
    · cases hr
      obtain ⟨rfl, hc⟩ := advance_error he
      exact ⟨by rcases hc with rfl | rfl <;> simp [RaisedDuring], .refl s, .refl s, rfl⟩
  | fmr cyc a =>
    rcases andThen_cases h with ⟨u, -, hk⟩ | ⟨e, he, hr⟩
    · cases hk
    · cases hr
      obtain ⟨rfl, hc⟩ := advance_error he
      exact ⟨by rcases hc with rfl | rfl <;> simp [RaisedDuring], .refl s, .refl s, rfl⟩
  | mix f =>
    rcases andThen_cases h with ⟨u, hu, hk⟩ | ⟨e, he, hr⟩
    · obtain ⟨-, rfl⟩ := room_of_advance hu
      obtain ⟨es, he, hn⟩ := advanced_onlyCalls f (record (.psgEndFrame f) s)
      unfold walkBody at hk
      split at hk
      · cases hk
      · rename_i k hw
        cases hk
        refine ⟨by simp [RaisedDuring], advanced_untouched f (record (.psgEndFrame f) s),
          ⟨[.psgEndFrame f] ++ es ++ k.calls, by simp [he], ?_⟩, ?_⟩
        · intro c
          have := walk_calls (.inr hw) c
          simp [hn c, this]
        · simp [advanced_frame]
    · cases hr
      obtain ⟨rfl, hc⟩ := advance_error he
      exact ⟨by rcases hc with rfl | rfl <;> simp [RaisedDuring], ⟨rfl, rfl, rfl, rfl, rfl⟩,
        ⟨[.psgEndFrame f], rfl, by simp⟩, rfl⟩
  | save =>
    change saveBody s = _ at h
    unfold saveBody at h
    split at h
    · cases h
      exact ⟨by simp [RaisedDuring], ⟨rfl, rfl, rfl, rfl, rfl⟩, ⟨[.fmSaveState (fmSaveAnswer s)], rfl, by simp⟩, rfl⟩
    · split at h
      · cases h
        refine ⟨by simp [RaisedDuring], ⟨rfl, rfl, rfl, rfl, rfl⟩, ⟨[.fmSaveState (fmSaveAnswer s), .psgSaveState (psgSaveAnswer (callFmSave s))], ?_, by simp⟩, rfl⟩
        simp
      · cases h
  | load b => cases h

/-- A check never raises a cause of group 4, but for LOAD's BLOB_FORMAT. -/
theorem check_cause {i : Instr} {s : State} {c : Cause} (h : checkOf i s = some c) :
    c ≠ .bufferOverflow ∧ c ≠ .counterOverflow ∧ c ≠ .arithOverflow ∧ (c = .blobFormat → i ≠ .save) := by
  have no : ∀ c', c' = c → (c' ≠ .bufferOverflow ∧ c' ≠ .counterOverflow ∧ c' ≠ .arithOverflow ∧ c' ≠ .blobFormat) →
      c ≠ .bufferOverflow ∧ c ≠ .counterOverflow ∧ c ≠ .arithOverflow ∧ (c = .blobFormat → i ≠ .save) := by
    rintro c' rfl ⟨h1, h2, h3, h4⟩
    exact ⟨h1, h2, h3, fun h => absurd h h4⟩
  cases i <;> simp only [checkOf, selectCheck, resetCheck, accessCheck, readCheck, mixCheck, saveCheck, loadCheck] at h
  case load b =>
    refine ⟨?_, ?_, ?_, fun _ => by simp⟩ <;> rintro rfl <;> (repeat' split at h) <;> cases h
  all_goals (repeat' split at h) <;> first | (cases h; done) | (cases h; exact no _ rfl (by simp))

end Sys2Proof.Machine
end

