-- ==== Sys2Proof/Laws/PerInstr.lean ====
section
/-! SUPPORT. The family CommandShape, one lemma per constructor: the operand a command is handed over with is of the
kind the length rule reads from its operation code (R72), and its reserved bits are 0 (R70). -/

namespace Sys2Proof.Laws.CommandShape

/-- The kind of what the host hands over after the command word. -/
def kindOf : List HostItem → OperandKind
  | [] => .nothing
  | .word _ :: _ => .word
  | .bytes _ :: _ => .bytes
  | .config _ :: _ => .nothing

/-- The operand is of the kind the operation code asks for, and the reserved fields are 0. -/
def Statement (i : Instr) : Prop :=
  kindOf i.operandItems = operandKind (opField i.commandWord) ∧
    rsv0Field i.commandWord = 0 ∧ rsv1Field i.commandWord = 0

/-- Only the operand's kind differs from command to command. -/
theorem of_kind {i : Instr} (h : kindOf i.operandItems = operandKind i.opcode) : Statement i := by
  obtain ⟨d, a, hw⟩ := commandWord_packed i
  exact ⟨by rw [opField_commandWord, h], by rw [hw, rsv0Field_packWord], by rw [hw, rsv1Field_packWord]⟩

theorem select : Statement .select := of_kind rfl

theorem reset : Statement .reset := of_kind rfl

theorem advance (cyc : Word) : Statement (.advance cyc) := of_kind rfl

theorem fmw (cyc : Word) (a d : Byte) : Statement (.fmw cyc a d) := of_kind rfl

theorem fmr (cyc : Word) (a : Byte) : Statement (.fmr cyc a) := of_kind rfl

theorem mix (cyc : Word) : Statement (.mix cyc) := of_kind rfl

theorem save : Statement .save := of_kind rfl

theorem load (b : List Byte) : Statement (.load b) := of_kind rfl

end Sys2Proof.Laws.CommandShape
end

