-- ==== Sys2Proof/Tests/Slice0.lean ====
section
/-! SUPPORT. The model's own tests. Every expected value comes from spec/95_test_vectors.md, from the tables of
30_encoding.md, or from a hand calculation by the rule named. `witness_<Name>` meets the hypotheses of the obligation
of that name. -/

namespace Sys2Proof.Tests

open Sys2Proof Sys2Proof.Machine

/-! ### Helpers -/

/-- The build of spec/95_test_vectors.md; `m` stands there for an open PSG mode, here 0, 1 and 2. -/
def lab : Params :=
  { dualFm := true, psgModeA := 0, psgModeB := 1, psgModeC := 2, psgChmask := 0x00, psgVolmask := 0xFF,
    bufCap := 1080, fmLenHp := 3, fmLenStd := 3, fmLenSimp := 2, psgLen := 2 }

/-- A configuration of HW_A without preference, amplification `pre`, band-limited when `hq`. -/
def cfgWith (pre : S32) (hq : Bool) : MixConfig :=
  { hwc := .hwA, pref := false, dac := 9, fmpre := pre, psgpre := 100, hq := hq }

/-- Power-on of that build. -/
def off : State := { State.reset with params := lab, cfg := cfgWith 100 true }

/-- After SELECT, variant `v`. -/
def chosen (v : Variant) : State := { off with var := v, ratio := ratioOf v, phase := .selected }

/-- After SELECT and RESET, variant `v`. -/
def running (v : Variant) : State := { chosen v with phase := .running }

/-- The same, at a frame boundary with residual `fs`. -/
def boundary (v : Variant) (fs : Word) : State := { running v with fs := fs, pt := fs }

/-- The same, in the middle of a frame with one pending pair, cycle `last` presented. -/
def pending (v : Variant) (p : Pair) (last : Word) : State :=
  { running v with buf := [p], blen := 1, pt := BitVec.ofNat 32 (cycles (ratioOf v)), last := last }

/-- With scripted answers: pairs, read values, blobs of both engines, counts. -/
def State.scripted (s : State) (ps : List Pair) (rs : List Byte) (n : List Word) : State :=
  { s with answers := ⟨ps, rs, [[0x01, 0x02, 0x03]], [[0xA0, 0xA1]], n⟩ }

/-- A property of the next state a machine answers. -/
def next (o : Out) (p : State → Bool) : Bool :=
  match o with
  | .next t => p t
  | .fault _ => false
  | .refused _ => false

/-- One step of a state to which the items are handed over. -/
def stepOn (s : State) (items : List HostItem) : Out := step { s with inbox := items }

/-! ### Arithmetic primitives (95 V-A) -/

theorem test_tdiv :
    tdiv 49950 100 = 499 ∧ tdiv (-49950) 100 = -499 ∧ tdiv (-1) 100 = 0 ∧ tdiv (-2147483648) 100 = -21474836 ∧
      tdiv 2147483647 100 = 21474836 := by decide

theorem test_ceildiv :
    ceildiv 0 42 = 0 ∧ ceildiv 1 42 = 1 ∧ ceildiv 42 42 = 1 ∧ ceildiv 43 42 = 2 ∧ ceildiv 50000 1008 = 50 ∧
      ceildiv 49392 1008 = 49 ∧ ceildiv 49393 1008 = 50 ∧ ceildiv 4294967295 42 = 102261127 := by decide

/-! ### Decoding (R77, 95 V-B): words written out bit by bit -/

theorem test_decode_select : decodeWord 0b00000000000000000000000000000001 0 [] = .ok .select := by decide
theorem test_decode_reset : decodeWord 0b00000000000000000000000000000010 0 [] = .ok .reset := by decide
theorem test_decode_advance : decodeWord 0b00000000000000000000000000000011 126 [] = .ok (.advance 126) := by decide
theorem test_decode_fmw :
    decodeWord 0b00000000001000100000000000000100 100 [] = .ok (.fmw 100 0x00 0x22) ∧
      decodeWord 0b00000000111111110000000100000100 100 [] = .ok (.fmw 100 0x01 0xFF) := by decide
theorem test_decode_fmr : decodeWord 0b00000000000000001111111100000101 5 [] = .ok (.fmr 5 0xFF) := by decide
theorem test_decode_mix : decodeWord 0b00000000000000000000000000000110 50000 [] = .ok (.mix 50000) := by decide
theorem test_decode_save : decodeWord 0b00000000000000000000000000000111 0 [] = .ok .save := by decide
theorem test_decode_load : decodeWord 0b00000000000000000000000000001000 0 [7] = .ok (.load [7]) := by decide

theorem test_decode_illegal :
    decodeWord 0x00000000 0 [] = .error .reservedOp ∧ decodeWord 0x00000009 0 [] = .error .reservedOp ∧
      decodeWord 0x0000000F 0 [] = .error .reservedOp ∧ decodeWord 0x00000011 0 [] = .error .rsv0NotZero ∧
      decodeWord 0x01000001 0 [] = .error .rsv1NotZero ∧ decodeWord 0x00000101 0 [] = .error .addressNotZero ∧
      decodeWord 0x00FF0005 0 [] = .error .dataNotZero ∧ decodeWord 0x00010003 0 [] = .error .dataNotZero := by
  decide

theorem test_table_words :
    decodeTableWord 32 0x00220004 = some (.fmw 0 0x00 0x22) ∧ decodeTableWord 32 8 = some (.load []) ∧
      decodeTableWord 64 0x0000007E00000003 = some (.advance 126) ∧ decodeTableWord 32 0x106 = none := by decide

/-! ### WellFormed: an ill-formed line for each check (R78) -/

theorem test_wellFormed_refuses :
    (Asm.advance (2 ^ 32)).wellFormed = false ∧ (Asm.fmw (2 ^ 32) 0 0).wellFormed = false ∧
      (Asm.fmw 0 256 0).wellFormed = false ∧ (Asm.fmw 0 0 256).wellFormed = false ∧
      (Asm.fmr (2 ^ 32) 0).wellFormed = false ∧ (Asm.fmr 0 256).wellFormed = false ∧
      (Asm.mix (2 ^ 32)).wellFormed = false ∧ (Asm.sync (2 ^ 32)).wellFormed = false := by decide

theorem test_wellFormed_accepts :
    (Asm.advance (2 ^ 32 - 1)).wellFormed = true ∧ (Asm.fmw (2 ^ 32 - 1) 255 255).wellFormed = true ∧
      (Asm.fmr (2 ^ 32 - 1) 255).wellFormed = true ∧ (Asm.mix 0).wellFormed = true := by decide

/-- "FMW 40000, 0x01, 0xB4 ; key off" (R78, R80). -/
theorem test_parse_fmw :
    parseLine ['F', 'M', 'W', ' ', '4', '0', '0', '0', '0', ',', ' ', '0', 'x', '0', '1', ',', '0', 'x', 'B', '4', ' ',
      ';', ' ', 'k'] = .asm (.fmw 40000 0x01 0xB4) := by decide

theorem test_parse_others :
    parseLine ['I', 'N', 'I', 'T'] = .asm .init ∧ parseLine [';', 'x'] = .empty ∧
      parseLine ['M', 'I', 'X', ' ', '0', 'x'] = .bad ∧ parseLine ['S', 'A', 'V', 'E', ' ', '1'] = .bad := by decide

/-! ### One step of each command -/

/-- 95 V-C: HW_A without preference selects STD with DAC 9. -/
theorem test_select_std :
    next (stepOn off [.word 1]) (fun t =>
      decide (t.var = .std ∧ t.ratio = .c1008 ∧ t.phase = .selected ∧
        t.trace = [.fmBind .std (some 9), .psgInit 0, .fmReset, .psgReset])) = true := by decide

/-- 95 V-C: SELECT with a pending pair. -/
theorem test_select_pending :
    next (stepOn (pending .hp ⟨1, 1⟩ 0) [.word 1]) (fun t =>
      decide (t.fault = true ∧ t.fcause = 3 ∧ t.trace = [.fault .reselect] ∧ t.var = .hp)) = true := by decide

/-- 95 V-C: RESET with a pending pair, residual and carry. -/
theorem test_reset_pending :
    next (stepOn { pending .hp ⟨1, 1⟩ 0 with fs := 126, pt := 168, cl := 50 } [.word 2]) (fun t =>
      decide (t.blen = 0 ∧ t.fs = 0 ∧ t.pt = 0 ∧ t.cl = 0 ∧ t.phase = .running ∧
        t.trace = [.fmReset, .psgReset, .psgConfigure 0x00 100 0xFF])) = true := by decide

/-- 95 V-C: RESET at power-on. -/
theorem test_reset_off :
    next (stepOn off [.word 2]) (fun t => decide (t.fcause = 2 ∧ t.trace = [.fault .notReady])) = true := by decide

/-- 95 V-D: HP, ADVANCE 200 generates ceildiv(200, 42) = 5 pairs. -/
theorem test_advance_200 :
    next (stepOn (running .hp) [.word 3, .word 200]) (fun t =>
      decide (t.pt = 210 ∧ t.blen = 5 ∧ t.last = 200 ∧ generatedPairs t.trace = 5)) = true := by decide

/-- 95 V-D: COUNTER_OVERFLOW after LOAD of 2^32 − 10. -/
theorem test_advance_counter :
    next (stepOn (boundary .std 4294967286) [.word 3, .word 4294967295]) (fun t =>
      decide (t.fault = true ∧ t.fcause = 9 ∧ t.trace = [.fault .counterOverflow])) = true := by decide

/-- 95 V-D: FMW 40000, 0x01, 0xB4 on STD. -/
theorem test_fmw_40000 :
    next (stepOn (running .std) [.word 0x00B40104, .word 40000]) (fun t =>
      decide (t.pt = 40320 ∧ t.blen = 40 ∧ t.last = 40000 ∧ t.trace.getLast? = some (.fmWrite 0x01 0xB4) ∧
        generatedPairs t.trace = 40)) = true := by decide

/-- 95 V-D: FMW below a timestamp already presented. -/
theorem test_fmw_order :
    next (stepOn { running .std with pt := 40320, blen := 40, last := 40000 } [.word 4, .word 39999]) (fun t =>
      decide (t.fcause = 4 ∧ t.trace = [.fault .stampOrder] ∧ t.last = 40000)) = true := by decide

/-- 95 V-D: FMR 126, 0x00 on HP, covered; the engine answers 0x80. -/
theorem test_fmr_covered :
    next (stepOn (State.scripted { running .hp with pt := 126, blen := 3, last := 100 } [] [0x80] [])
        [.word 5, .word 126]) (fun t =>
      decide (t.results = [.value 0x80] ∧ t.last = 126 ∧ t.trace = [.fmRead 0x00 0x80])) = true := by decide

/-- 95 V-D, V-G: FMR on SIMP faults with READ_UNSUPPORTED even when its timestamp is out of order. -/
theorem test_fmr_simplified :
    next (stepOn { running .simplified with last := 2160, pt := 2160, blen := 2 } [.word 5, .word 100]) (fun t =>
      decide (t.fcause = 5 ∧ t.trace = [.fault .readUnsupported] ∧ t.pt = 2160)) = true := by decide

/-- 95 V-E: the pair (−333, 333) at 150 percent against the carry (150, 300), then the frame's end. -/
theorem test_mix_truncates :
    next (stepOn (State.scripted { running .std with cl := 150, cr := 300, cfg := cfgWith 150 true }
        [⟨-333, 333⟩] [] [7]) [.word 6, .word 1000]) (fun t =>
      decide (t.cl = -499 ∧ t.cr = 499 ∧ t.fs = 8 ∧ t.pt = 8 ∧ t.blen = 0 ∧ t.results = [.count 7] ∧
        t.trace = [.psgEndFrame 1000, .fmGenerate 1 [⟨-333, 333⟩], .rsAddDelta 0 (-649) 199, .rsEndFrame 1000,
          .rsSamplesAvailable 7])) = true := by decide

/-- 95 V-E: the product 2^31 overflows after the generate call, before the delta. -/
theorem test_mix_overflow :
    next (stepOn (State.scripted { running .std with cfg := cfgWith 200 true } [⟨1073741824, 0⟩] [] [])
        [.word 6, .word 1000]) (fun t =>
      decide (t.fault = true ∧ t.fcause = 10 ∧ t.results = [] ∧
        t.trace = [.psgEndFrame 1000, .fmGenerate 1 [⟨1073741824, 0⟩], .fault .arithOverflow])) = true := by decide

/-- 95 V-F: SAVE on STD with FS 40. -/
theorem test_save_std :
    next (stepOn (State.scripted (boundary .std 40) [] [] []) [.word 7]) (fun t =>
      decide (t.results = [.bytes [0x00, 0x01, 0x02, 0x03, 0xA0, 0xA1, 0x28, 0x00, 0x00, 0x00]] ∧ t.fs = 40)) = true := by
  decide

/-- 95 V-F: SAVE in the middle of a frame. -/
theorem test_save_midFrame :
    next (stepOn (pending .std ⟨1, 1⟩ 0) [.word 7]) (fun t =>
      decide (t.fcause = 7 ∧ t.trace = [.fault .midFrame])) = true := by decide

/-- 95 V-F: LOAD on STD of a residual of 40. -/
theorem test_load_std :
    next (stepOn { running .std with last := 5, cl := 3 }
        [.word 8, .bytes [0x00, 0x01, 0x02, 0x03, 0xA0, 0xA1, 0x28, 0x00, 0x00, 0x00]]) (fun t =>
      decide (t.fs = 40 ∧ t.pt = 40 ∧ t.last = 0 ∧ t.cl = 3 ∧
        t.trace = [.fmLoadState [0x01, 0x02, 0x03], .psgLoadState [0xA0, 0xA1]])) = true := by decide

/-- 95 V-F: LOAD on STD of a byte string with HP's discriminator. -/
theorem test_load_disc :
    next (stepOn (running .std)
        [.word 8, .bytes [0x01, 0x01, 0x02, 0x03, 0xA0, 0xA1, 0x28, 0x00, 0x00, 0x00]]) (fun t =>
      decide (t.fcause = 11 ∧ t.trace = [.fault .blobFormat])) = true := by decide

/-- 95 V-G: an illegal word at power-on is CMD_ILLEGAL, not NOT_READY, and its operand is consumed (R80). -/
theorem test_illegal_at_power_on :
    next (stepOn off [.word 0x106, .word 3, .word 1]) (fun t =>
      decide (t.fcause = 1 ∧ t.trace = [.fault .cmdIllegal] ∧ t.inbox = [.word 1])) = true := by decide

/-- 95 V-G: RESET on a faulted block is refused with no effect and no event. -/
theorem test_faulted_refuses :
    next (stepOn { running .std with fault := true, fcause := 5 } [.word 2]) (fun t =>
      decide (t.fault = true ∧ t.fcause = 5 ∧ t.trace = [])) = true := by decide

/-- A word placed by withFetchWord is the next command to run, from the reset state too. -/
theorem test_withFetchWord :
    next (step (State.withFetchWord State.reset 32 1)) (fun t => decide (t.phase = .selected)) = true ∧
      next (step (State.withFetchWord (running .hp) 64 0x000000C800000003)) (fun t => decide (t.pt = 210)) = true := by
  decide

/-! ### Witnesses: concrete inputs that meet the hypotheses of the obligations

Boundary values stand at both ends of a range where a statement has one. -/

/-- The pairs a residual of 40 and a frame of 3000 cycles need on STD: ceildiv(2960, 1008) = 3. -/
def threePairs : List Pair := [⟨50, 60⟩, ⟨-50, -60⟩, ⟨1, 1⟩]

/-- 95 P5: STD between frames, residual 40, the engine about to answer three pairs, 150 percent. -/
def mixing : State :=
  State.scripted { boundary .std 40 with cfg := cfgWith 150 true } threePairs [0x80] [5]

theorem mixing_inv : Inv mixing := by
  refine ⟨fun _ => ⟨0, by decide⟩, fun _ => by decide, fun _ => by decide, fun _ => by decide, fun _ => by decide,
    fun _ => by decide, ⟨fun _ => by decide, fun h => by cases h⟩, ?_⟩
  intro n ps h
  cases h

theorem witness_EncodeWritesBackDecode :
    decode [.word 0x00220004, .word 100, .word 1] = .command (.fmw 100 0x00 0x22) [.word 1] := by decide

theorem witness_LegalWordsMatchOneRow :
    decodeWord 0x0000FF05 5 [] = .ok (.fmr 5 0xFF) ∧
      (opcodeRows.filter (fun r => r.matchesWord 0x0000FF05)).map OpcodeRow.mnemonic = ["FMR"] := by decide

/-- Each reason of R75 at its first and last value. -/
theorem witness_IllegalWordsRaiseCmdIllegal :
    opField 0xFFFFFFF0 = 0 ∧ (opField 0x9).toNat = 9 ∧ (opField 0xF).toNat = 15 ∧ rsv0Field 0x11 = 1 ∧
      rsv1Field 0xFF000001 = 255 ∧ (aField 0x106 = 1 ∧ opField 0x106 = 6) ∧ (dField 0x10005 = 1 ∧ opField 0x10005 = 5) ∧
      off.fault = false ∧
      decode ({ off with inbox := [.word 0x106, .word 3] }).inbox = .illegal .addressNotZero [] := by decide

theorem witness_OperandsTakenByOperationCode :
    opField 3 = 3 ∧ opField 4 = 4 ∧ opField 5 = 5 ∧ opField 6 = 6 ∧ opField 8 = 8 ∧ opField 0 = 0 ∧ opField 1 = 1 ∧
      opField 2 = 2 ∧ opField 7 = 7 ∧ 9 ≤ (opField 9).toNat ∧ 9 ≤ (opField 15).toNat := by decide

theorem witness_OperandsAreZeroExtended :
    decodeWord 0x00FFFF04 0xFFFFFFFF [] = .ok (.fmw 0xFFFFFFFF 0xFF 0xFF) ∧
      decodeWord 0x00000003 0x80000000 [] = .ok (.advance 0x80000000) := by decide

/-- R78 at the ends of its ranges. -/
theorem witness_AssemblerKeepsOrRefusesOperands :
    assemble [] (.fmw 4294967295 255 0) = some [.fmw 4294967295 255 0] ∧ assemble [] (.advance 4294967296) = none ∧
      assemble [] (.fmr 0 256) = none ∧ assemble [(['b'], [7])] (.load ['b']) = some [.load [7]] ∧
      assemble [] (.load ['b']) = none := by decide

theorem witness_StepRunsTheDecodedCommand :
    decode ({ off with inbox := [.word 1, .word 2] }).inbox = .command .select [.word 2] := by decide

theorem witness_StepOnOtherItems :
    off.inbox = [] ∧ ({ off with inbox := [.config (cfgWith 1 true)] }).inbox = .config (cfgWith 1 true) :: [] ∧
      ({ off with inbox := [.bytes [7], .word 1] }).inbox = .bytes [7] :: [.word 1] ∧
      ({ off with inbox := [.word 3] }).inbox = .word 3 :: [] ∧
      (operandKind (opField 3) = .word ∧ operandKind (opField 6) = .word ∧ operandKind (opField 8) = .bytes) := by
  decide

/-- Nothing, a byte string or a setting where an operand word is due; nothing, a word or a setting where a byte string
is due (log entry 8). -/
theorem witness_StepOnOtherItems_wrongOperand :
    (∀ w1 more, ([] : List HostItem) ≠ .word w1 :: more) ∧ (∀ w1 more, [HostItem.bytes [7]] ≠ .word w1 :: more) ∧
      (∀ w1 more, [HostItem.config (cfgWith 1 true), .word 5] ≠ .word w1 :: more) ∧
      (∀ b more, ([] : List HostItem) ≠ .bytes b :: more) ∧ (∀ b more, [HostItem.word 1] ≠ .bytes b :: more) ∧
      ∀ b more, [HostItem.config (cfgWith 1 true), .bytes [7]] ≠ .bytes b :: more := by simp

/-- Other values of the unspecified registers in PHASE OFF, and in PHASE SELECTED. -/
theorem witness_UnspecifiedRegistersAreNotRead :
    (off.phase = .off ∧ ({ off with ratio := .c1080, pt := 7, blen := 3, cl := 1 } : State) ≠ off) ∧
      ((chosen .hp).phase = .selected ∧ ({ chosen .hp with fs := 9, last := 2 } : State).ratio = (chosen .hp).ratio) := by
  decide

theorem witness_BootReachesRunning : off.fault = false ∧ off.phase = .off := by decide

/-- An illegal word with SELECT's operation code, a command other than RESET, and the four states SELECT tells apart. -/
theorem witness_SelectChoosesTheBackend :
    (opField 0x101 = 1 ∧ (0x101 : Word) ≠ 0x00000001) ∧ Instr.mix 100 ≠ .reset ∧
    ((chosen .hp).fault = false ∧ (chosen .hp).phase = .selected) ∧
      ((pending .hp ⟨1, 1⟩ 0).phase = .running ∧ (pending .hp ⟨1, 1⟩ 0).blen ≠ 0) ∧
      off.phase = .off ∧ ((running .std).phase = .running ∧ (running .std).blen = 0) := by decide

theorem witness_ResetClearsTheScheduler :
    off.fault = false ∧ off.phase = .off ∧ (chosen .std).fault = false ∧ (chosen .std).phase ≠ .off := by decide

theorem witness_ResetForgetsThePendingFrame :
    (pending .hp ⟨1, 1⟩ 0).fault = false ∧ (pending .hp ⟨1, 1⟩ 0).phase ≠ .off := by decide

theorem witness_RatioIsFixedForTheSession :
    Instr.advance 200 ≠ .select ∧ next (exec (.advance 200) (running .hp)) (fun t => decide (t.fault = false)) = true ∧
      (chosen .hp).phase = .selected ∧ next (exec .reset (chosen .hp)) (fun t => decide (t.fault = false)) = true := by
  decide

/-- Covered exactly (cyc = PT), one cycle more, a buffer exactly full, and a counter exactly at 2^32 − 1. -/
theorem witness_AdvanceGeneratesTheOwedSamples :
    ((boundary .hp 42).Live ∧ (boundary .hp 42).last.toNat ≤ (42 : Word).toNat ∧
      (42 : Word).toNat ≤ (boundary .hp 42).pt.toNat) ∧
    ((boundary .hp 42).pt.toNat < (43 : Word).toNat ∧ ceildiv (43 - 42) 42 = 1) ∧
    ((running .hp).blen + ceildiv 45360 42 = lab.bufCap) ∧
    ((boundary .std 4294966287).pt.toNat < (4294966288 : Word).toNat ∧
      (boundary .std 4294966287).pt.toNat + ceildiv (4294966288 - 4294966287) 1008 * cycles .c1008 = 2 ^ 32 - 1) := by
  decide

theorem witness_FmwAdvancesThenWrites :
    (running .simplified).Live ∧ (running .simplified).last.toNat ≤ (1000 : Word).toNat ∧
      Room 1000 (running .simplified) := by decide

theorem witness_FmrAdvancesThenReads :
    (running .hp).Live ∧ (running .hp).var ≠ .simplified ∧ (running .hp).last.toNat ≤ (126 : Word).toNat ∧
      Room 126 (running .hp) := by decide

/-- One state for each of the three rejections. -/
theorem witness_AccessesAreRejectedInOrder :
    (stampOf (.fmr 5 1) = some 5 ∧ (chosen .hp).fault = false ∧ (chosen .hp).phase ≠ .running) ∧
      ((running .simplified).phase = .running ∧ (running .simplified).var = .simplified ∧
        ∃ a, Instr.fmr 5 1 = .fmr 5 a) ∧
      ((pending .hp ⟨1, 1⟩ 42).phase = .running ∧ (pending .hp ⟨1, 1⟩ 42).var ≠ .simplified ∧
        (41 : Word).toNat < (pending .hp ⟨1, 1⟩ 42).last.toNat) := by
  exact ⟨by decide, ⟨by decide, by decide, 1, rfl⟩, by decide⟩

/-- One pair too many, and one cycle beyond u32. -/
theorem witness_AccessesOverflowBeforeTheCall :
    (stampOf (.fmw 45361 0 0) = some 45361 ∧ (running .hp).Live ∧ (running .hp).var ≠ .simplified ∧
      (running .hp).pt.toNat < (45361 : Word).toNat ∧ lab.bufCap < (running .hp).blen + owed 45361 (running .hp)) ∧
    ((boundary .std 4294966288).Live ∧ (boundary .std 4294966288).pt.toNat < (4294966289 : Word).toNat ∧
      (boundary .std 4294966288).blen + owed 4294966289 (boundary .std 4294966288) ≤ lab.bufCap ∧
      2 ^ 32 - 1 < (boundary .std 4294966288).pt.toNat +
        owed 4294966289 (boundary .std 4294966288) * cycles (boundary .std 4294966288).ratio) := by decide

theorem witness_NoOverProduction :
    ∃ s', advance 43 (boundary .hp 42) = .ok s' ∧ (boundary .hp 42).pt.toNat < (43 : Word).toNat := ⟨_, rfl, by decide⟩

/-- 95 W2, by all three commands. -/
theorem witness_SampleCountIsExact :
    (running .hp).Live ∧ (running .hp).blen = 0 ∧ (running .hp).pt = (running .hp).fs ∧ (running .hp).last = 0 ∧
      [Instr.advance 1, .fmw 42 0 0, .fmr 43 0, .advance 200].map stampOf = [(1 : Word), 42, 43, 200].map some ∧
      (running .hp).var ≠ .simplified ∧
      [(1 : Word), 42, 43, 200].Pairwise (fun x y => x.toNat ≤ y.toNat) ∧ [(1 : Word), 42, 43, 200].getLast? = some 200 ∧
      5 = ceildiv ((200 : Word).toNat - (running .hp).fs.toNat) (cycles (running .hp).ratio) ∧
      5 ≤ lab.bufCap ∧ (running .hp).fs.toNat + 5 * cycles (running .hp).ratio ≤ 2 ^ 32 - 1 := by decide

theorem witness_GenerateWritesOnlyItsCells :
    (pending .hp ⟨1, 1⟩ 42).Live ∧ (pending .hp ⟨1, 1⟩ 42).last.toNat ≤ (85 : Word).toNat ∧
      (pending .hp ⟨1, 1⟩ 42).pt.toNat < (85 : Word).toNat ∧ Room 85 (pending .hp ⟨1, 1⟩ 42) ∧
      owed 85 (pending .hp ⟨1, 1⟩ 42) = 2 := by decide

theorem witness_CeilDivIsTheLeastCover : 0 < 42 ∧ ceildiv 43 42 = 2 ∧ 43 ≤ 2 * 42 ∧ ¬ 43 ≤ 1 * 42 := by decide

/-- Products 2^31 and −2^31 − 1 (out), 2^31 − 1 and −2^31 (in). -/
theorem witness_AmplificationTruncatesTheExactProduct :
    amp 1073741824 2 = none ∧ amp (-715827883) 3 = none ∧ amp 2147483647 1 = some 21474836 ∧
      amp 2147483648 1 = some (-21474836) := by decide

theorem witness_DeltaCheckNeverFires :
    amp 2147483648 1 = some (-21474836) ∧ amp 2147483647 1 = some 21474836 ∧
      delta (-21474836) 21474836 = some (-42949672) := by decide

theorem witness_MixInClosedForm :
    mixing.Live ∧ Inv mixing ∧ (3000 : Word) ≠ 0 ∧ mixing.last.toNat ≤ (3000 : Word).toNat ∧ Room 3000 mixing ∧
      framePairs 3000 mixing = threePairs ∧ (∀ p ∈ threePairs, Amplifiable mixing.cfg.fmpre p) ∧
      frameEnd 3000 mixing = 3064 ∧ threePairs.map (emit mixing.cfg.fmpre) = [⟨75, 90⟩, ⟨-75, -90⟩, ⟨1, 1⟩] := by
  exact ⟨by decide, mixing_inv, by decide, by decide, by decide, by decide, by decide, by decide, by decide⟩

/-- Not RUNNING; F = 0; F one below a timestamp presented. -/
theorem witness_MixIsRejectedOnItsBaseline :
    (chosen .std).fault = false ∧ (chosen .std).phase ≠ .running ∧ (running .std).phase = .running ∧ (0 : Word) = 0 ∧
      (499 : Word).toNat < ({ running .std with last := 500 } : State).last.toNat := by decide

theorem witness_MixOverflowsBeforeGenerating :
    ((running .hp).Live ∧ (45361 : Word) ≠ 0 ∧ (running .hp).last.toNat ≤ (45361 : Word).toNat ∧
      (running .hp).pt.toNat < (45361 : Word).toNat ∧ lab.bufCap < (running .hp).blen + owed 45361 (running .hp)) ∧
    ((boundary .std 4294966288).Live ∧ (4294966289 : Word) ≠ 0 ∧
      (boundary .std 4294966288).pt.toNat < (4294966289 : Word).toNat ∧
      (boundary .std 4294966288).blen + owed 4294966289 (boundary .std 4294966288) ≤ lab.bufCap ∧
      2 ^ 32 - 1 < (boundary .std 4294966288).pt.toNat +
        owed 4294966289 (boundary .std 4294966288) * cycles (boundary .std 4294966288).ratio) := by decide

/-- STD whose engine answers a pair that can be amplified and then one that can not. -/
def overflowing : State :=
  State.scripted { running .std with cfg := cfgWith 100 true } [⟨21474836, 0⟩, ⟨21474837, 0⟩] [] []

theorem witness_MixStopsAtTheFirstOverflow :
    overflowing.Live ∧ Inv2 overflowing ∧ CarryInv overflowing ∧ (2000 : Word) ≠ 0 ∧
      overflowing.last.toNat ≤ (2000 : Word).toNat ∧ Room 2000 overflowing ∧
      framePairs 2000 overflowing = [⟨21474836, 0⟩] ++ ⟨21474837, 0⟩ :: [] ∧
      overflowing.fs.toNat + 1 * cycles overflowing.ratio < (2000 : Word).toNat ∧
      Amplifiable overflowing.cfg.fmpre ⟨21474836, 0⟩ ∧ ¬ Amplifiable overflowing.cfg.fmpre ⟨21474837, 0⟩ := by
  exact ⟨by decide, fun _ => by decide, fun _ => by decide, by decide, by decide, by decide, by decide, by decide,
    by decide, by decide⟩

/-- 95 V-E: HP, FS 10, MIX 10: the longest frame that walks no pair. -/
theorem witness_EmptyWalkKeepsTheCarry :
    (boundary .hp 10).Live ∧ Inv2 (boundary .hp 10) ∧ (10 : Word) ≠ 0 ∧
      (boundary .hp 10).last.toNat ≤ (10 : Word).toNat ∧ (10 : Word).toNat ≤ (boundary .hp 10).fs.toNat := by
  exact ⟨by decide, fun _ => by decide, by decide, by decide, by decide⟩

/-- A frame that walks (95 P5), and one that does not (95 V-E); both complete. -/
theorem witness_ResidualIsTheOvershoot :
    (mixing.Live ∧ mixing.fs.toNat < (3000 : Word).toNat ∧
      next (exec (.mix 3000) mixing) (fun t => decide (t.fault = false ∧ t.fs = 64)) = true) ∧
    ((boundary .hp 10).Live ∧ (10 : Word).toNat ≤ (boundary .hp 10).fs.toNat ∧
      next (exec (.mix 10) (boundary .hp 10)) (fun t => decide (t.fault = false ∧ t.fs = 0)) = true) := by decide

theorem witness_ResidualAfterFrames :
    (boundary .hp 40).Live ∧ (boundary .hp 40).fs.toNat < cycles (boundary .hp 40).ratio ∧
      next (runCommands (List.replicate 2 (.mix 20)) (boundary .hp 40)) (fun t => decide (t.fault = false ∧ t.fs = 0)) =
        true := by decide

/-- STD, residual 1007, the engine about to answer one pair. -/
def periodic : State := State.scripted (boundary .std 1007) [⟨1, 1⟩] [] []

/-- F = 504 on STD has period 1008 / 504 = 2: from one state, no frame and two frames leave the same residual, and one
frame leaves another. -/
theorem witness_ResidualPeriodIsExact :
    periodic.Live ∧ periodic.fs.toNat < cycles periodic.ratio ∧
      next (runCommands (List.replicate 0 (.mix 504)) periodic) (fun t => decide (t.fault = false ∧ t.fs = 1007)) = true ∧
      next (runCommands (List.replicate (0 + 1) (.mix 504)) periodic)
        (fun t => decide (t.fault = false ∧ t.fs = 503)) = true ∧
      next (runCommands (List.replicate (0 + 2) (.mix 504)) periodic)
        (fun t => decide (t.fault = false ∧ t.fs = 1007)) = true := by decide

theorem witness_SubmittedPairsAccountForTheFrames :
    mixing.Live ∧
      next (runCommands ([(3000 : Word), 20].map .mix) mixing)
        (fun t => decide (t.fault = false ∧ submittedDeltas t.trace = 3 ∧ t.fs = 44)) = true := by decide

/-- A frame with pairs and one without. -/
theorem witness_CarryIsTheLastEmittedPair :
    mixing.Live ∧ Inv mixing ∧ next (exec (.mix 3000) mixing) (fun t => decide (t.fault = false)) = true ∧
      (framePairs 3000 mixing).getLast? = some ⟨1, 1⟩ ∧
      next (exec (.mix 40) mixing) (fun t => decide (t.fault = false)) = true ∧ framePairs 40 mixing = [] := by
  exact ⟨by decide, mixing_inv, by decide, by decide, by decide, by decide⟩

/-- The longest frame that fits 1080 pairs of HP, and one cycle more. -/
theorem witness_FrameNeedsItsPairsInTheBuffer :
    (running .hp).Live ∧ Inv2 (running .hp) ∧ BufferInv (running .hp) ∧ (45360 : Word) ≠ 0 ∧
      (running .hp).last.toNat ≤ (45360 : Word).toNat ∧ ¬ lab.bufCap < ceildiv (45360 - 0) (cycles (running .hp).ratio) ∧
      lab.bufCap < ceildiv (45361 - 0) (cycles (running .hp).ratio) := by
  exact ⟨by decide, fun _ => by decide, fun _ => by decide, by decide, by decide, by decide, by decide⟩

theorem witness_SaveWritesTheLayout :
    mixing.Live ∧ mixing.blen = 0 ∧ fmSaveAnswer mixing = [0x01, 0x02, 0x03] ∧
      psgSaveAnswer (callFmSave mixing) = [0xA0, 0xA1] ∧ [1, 2, 3].length = fmLen mixing.params mixing.var ∧
      [0xA0, 0xA1].length = mixing.params.psgLen := by decide

theorem witness_LoadRestoresTheLayout :
    mixing.Live ∧ mixing.blen = 0 ∧ ([1, 2, 3] : List Byte).length = fmLen mixing.params mixing.var ∧
      ([0xA0, 0xA1] : List Byte).length = mixing.params.psgLen ∧
      discField mixing.params mixing.var = [0x00] := by decide

theorem witness_SerializerOnlyBetweenFrames :
    (chosen .std).fault = false ∧ (chosen .std).phase ≠ .running ∧ (pending .std ⟨1, 1⟩ 0).fault = false ∧
      (pending .std ⟨1, 1⟩ 0).phase = .running ∧ (pending .std ⟨1, 1⟩ 0).blen ≠ 0 := by decide

/-- The three ways LOAD refuses, and the two ways SAVE does. -/
theorem witness_BlobFormatIsChecked :
    (mixing.Live ∧ mixing.blen = 0 ∧ hasDisc mixing.params mixing.var = true ∧ (0x01 : Byte) ≠ disc mixing.var) ∧
      ([] : List Byte).length ≠ layoutLen mixing.params mixing.var ∧
      (List.replicate 9 (0 : Byte)).length ≠ layoutLen mixing.params mixing.var ∧
      (fmSaveAnswer { mixing with answers := ⟨[], [], [[1, 2, 3, 4]], [], []⟩ }).length ≠ fmLen lab .std ∧
      ((fmSaveAnswer { mixing with answers := ⟨[], [], [[1, 2, 3]], [[1]], []⟩ }).length = fmLen lab .std ∧
        (psgSaveAnswer (callFmSave { mixing with answers := ⟨[], [], [[1, 2, 3]], [[1]], []⟩ })).length ≠
          lab.psgLen) := by decide

/-- SAVE's byte string of 95 P5. -/
def savedBytes : List Byte := [0x00, 0x01, 0x02, 0x03, 0xA0, 0xA1, 0x28, 0x00, 0x00, 0x00]

theorem witness_SaveThenLoadKeepsTheRegisters :
    mixing.Live ∧ Inv2 mixing ∧
      next (exec .save mixing) (fun t =>
        decide (t.fault = false ∧ t.results = mixing.results ++ [.bytes savedBytes])) = true := by
  exact ⟨by decide, fun _ => by decide, by decide⟩

/-- Block Y: as X but for its residual, its history, and the blobs its engines would answer. -/
def restoring : State := { mixing with fs := 0, pt := 0, last := 7, trace := [.fmReset], answers := ⟨threePairs, [0x80], [], [], [5]⟩ }

theorem restoring_inv : Inv { restoring with last := 0 } := by
  refine ⟨fun _ => ⟨0, by decide⟩, fun _ => by decide, fun _ => by decide, fun _ => by decide, fun _ => by decide,
    fun _ => by decide, ⟨fun _ => by decide, fun h => by cases h⟩, ?_⟩
  intro n ps h
  simp [restoring] at h

theorem witness_RestoredBlockGoesOnAlike :
    Inv mixing ∧ Inv { restoring with last := 0 } ∧ mixing.Live ∧ restoring.Live ∧ mixing.blen = 0 ∧
      restoring.blen = 0 ∧ mixing.last = 0 ∧ restoring.var = mixing.var ∧ restoring.params = mixing.params ∧
      restoring.cfg = mixing.cfg ∧ restoring.carry = mixing.carry ∧
      next (exec .save mixing) (fun x' =>
        next (exec (.load savedBytes) { restoring with last := 0 }) (fun y' =>
          decide (x'.fault = false ∧ x'.results = mixing.results ++ [.bytes savedBytes] ∧ y'.answers = x'.answers ∧
            y'.draws = x'.draws))) = true := by
  exact ⟨mixing_inv, restoring_inv, by decide, by decide, by decide, by decide, by decide, by decide, by decide,
    by decide, by decide, by decide⟩

/-- An early fault and a fault during execution. -/
theorem witness_FaultEntryRecordsOneCause :
    (off.fault = false ∧ next (exec .reset off) (fun t => t.fault) = true) ∧
      (overflowing.fault = false ∧ next (exec (.mix 2000) overflowing) (fun t => t.fault) = true) := by decide

theorem witness_EarlyCausesArePrecise :
    off.fault = false ∧
      next (exec .reset off) (fun t =>
        decide (t.fault = true ∧ t.fcause ≠ Cause.code .bufferOverflow ∧ t.fcause ≠ Cause.code .counterOverflow ∧
          t.fcause ≠ Cause.code .arithOverflow ∧ t.fcause ≠ Cause.code .blobFormat)) = true := by decide

/-- A faulted block with two commands handed over. -/
def stuck : State := { running .std with fault := true, fcause := 5, inbox := [.word 2, .word 1] }

theorem witness_FaultedBlockTakesNoCommand :
    stuck.fault = true ∧ ∃ t, Sys2Proof.core.run 2 stuck = .next t := ⟨rfl, _, rfl⟩

theorem witness_StepKeepsTheInvariants :
    Inv mixing ∧ next (stepOn mixing [.word 6, .word 3000]) (fun t => decide (t.fs = 64)) = true :=
  ⟨mixing_inv, by decide⟩

/-- STD's layout with the residual 1007. -/
def largestBelow : List Byte := [0x00, 0x01, 0x02, 0x03, 0xA0, 0xA1, 0xEF, 0x03, 0x00, 0x00]

/-- A step that runs no LOAD, and one that runs LOAD of the largest residual below STD's ratio, 1007 = 0x3EF. -/
theorem witness_ResidualStaysBelowTheRatio :
    Inv mixing ∧ Inv4 mixing ∧
      (decode [.word 6, .word 3000] = .command (.mix 3000) [] ∧
        next (stepOn mixing [.word 6, .word 3000]) (fun t => decide (t.fs = 64)) = true) ∧
      (decode [.word 8, .bytes largestBelow] = .command (.load largestBelow) [] ∧
        (fsPart mixing.params mixing.var largestBelow).toNat = 1007 ∧ 1007 < cycles mixing.ratio ∧
        next (stepOn mixing [.word 8, .bytes largestBelow]) (fun t => decide (t.fault = false ∧ t.fs = 1007)) = true) :=
  ⟨mixing_inv, fun _ => by decide, by decide, by decide⟩

/-- Every command completes from some state without a fault. -/
theorem witness_CommandsWriteOnlyTheirRegisters :
    next (exec .select off) (fun t => !t.fault) = true ∧ next (exec .reset (chosen .hp)) (fun t => !t.fault) = true ∧
      next (exec (.advance 50) mixing) (fun t => !t.fault) = true ∧
      next (exec (.fmw 50 1 2) mixing) (fun t => !t.fault) = true ∧
      next (exec (.fmr 50 1) mixing) (fun t => !t.fault) = true ∧
      next (exec (.mix 3000) mixing) (fun t => !t.fault) = true ∧ next (exec .save mixing) (fun t => !t.fault) = true ∧
      next (exec (.load savedBytes) mixing) (fun t => !t.fault) = true := by decide

/-- Another setting of the inputs a command does not read. -/
theorem witness_CommandsReadOnlyTheirInputs :
    (∃ c : MixConfig, c ≠ mixing.cfg ∧ c.fmpre = mixing.cfg.fmpre ∧ c.hq = mixing.cfg.hq) ∧
      (∃ c : MixConfig, c ≠ mixing.cfg ∧ c.psgpre = mixing.cfg.psgpre) ∧
      ∃ c : MixConfig, c ≠ mixing.cfg ∧ c.hwc = mixing.cfg.hwc ∧ c.pref = mixing.cfg.pref ∧ c.dac = mixing.cfg.dac :=
  ⟨⟨{ mixing.cfg with dac := 1 }, by decide⟩, ⟨{ mixing.cfg with dac := 1 }, by decide⟩,
    ⟨{ mixing.cfg with hq := false }, by decide⟩⟩

theorem witness_StepsOnlyAddToTheObservation :
    next (stepOn off [.word 1]) (fun t => decide (t.phase = .selected)) = true := by decide

/-- Stale pairs and another history. -/
theorem witness_StalePairsAndHistoryMakeNoDifference :
    Inv mixing ∧ Inv { mixing with buf := [⟨9, 9⟩], trace := [.fmReset] } ∧
      SameToCome mixing { mixing with buf := [⟨9, 9⟩], trace := [.fmReset] } := by
  refine ⟨mixing_inv, ⟨fun _ => ⟨0, by decide⟩, fun _ => by decide, fun _ => by decide, fun _ => by decide,
    fun _ => by decide, fun _ => by decide, ⟨fun _ => by decide, fun h => by cases h⟩, ?_⟩, rfl, ?_⟩
  · intro n ps h
    simp at h
  · intro i h
    exact absurd h (Nat.not_lt_zero i)

end Sys2Proof.Tests
end

