-- ==== Sys2Proof/Proofs/CeilDiv.lean ====
section
/-! PROOFS. The rounding-up division of R13, which says how many pairs a stretch of cycles owes. -/

namespace Sys2Proof.Machine

/-- The defining property of `ceildiv`: no n below it covers a, and every n from it on does (R13). -/
theorem ceildiv_le_iff {b : Nat} (hb : 0 < b) (a n : Nat) : ceildiv a b ≤ n ↔ a ≤ n * b := by
  have hfloor : ceildiv a b ≤ n ↔ a + b - 1 ≤ b * n + (b - 1) := Nat.div_le_iff_le_mul_add_pred hb
  rw [hfloor, Nat.mul_comm b n]
  omega

/-- Settles O28: the floor form is the definition, and the least cover is `ceildiv_le_iff`. -/
theorem ceilDivIsTheLeastCover : Obligations.CeilDivIsTheLeastCover :=
  fun a _ n hb => ⟨rfl, ceildiv_le_iff hb a n⟩

end Sys2Proof.Machine
end

