-- ==== Sys2Proof/Proofs/Completion.lean ====
section
/-! PROOFS. What each command's execution comes to when it completes, said once for each, and from it the rules of the
table of access rights (R50) and of the observation (R51). -/

namespace Sys2Proof.Machine

/-! ### The state each execution completes in -/

/-- ADVANCE completes in the advanced state (R99). -/
theorem present_ok {cyc : Word} {s t : State} (h : present cyc s = .ok t) :
    Room cyc s ∧ t = advanced cyc (noteStamp cyc s) := room_of_advance h

/-- What follows an advance and cannot fail completes after the advanced state. -/
theorem andThen_present_ok {cyc : Word} {k : State → State} {s t : State}
    (h : andThen (present cyc s) (fun u => .ok (k u)) = .ok t) :
    Room cyc s ∧ t = k (advanced cyc (noteStamp cyc s)) := by
  rcases andThen_cases h with ⟨u, hu, hk⟩ | ⟨e, -, he⟩
  · obtain ⟨hr, rfl⟩ := present_ok hu
    cases hk
    exact ⟨hr, rfl⟩
  · cases he

/-- FMW completes in ADVANCE's state with the write after it (R100). -/
theorem writeBody_ok {cyc : Word} {a d : Byte} {s t : State} (h : writeBody cyc a d s = .ok t) :
    Room cyc s ∧ t = record (.fmWrite a d) (advanced cyc (noteStamp cyc s)) := andThen_present_ok h

/-- FMR completes in ADVANCE's state with the read after it (R101). -/
theorem readBody_ok {cyc : Word} {a : Byte} {s t : State} (h : readBody cyc a s = .ok t) :
    Room cyc s ∧ t = giveBack (.value (readAnswer a (advanced cyc (noteStamp cyc s))))
      (callRead a (advanced cyc (noteStamp cyc s))) :=
  andThen_present_ok (k := fun u => giveBack (.value (readAnswer a u)) (callRead a u)) h

/-- The state in which the walk of MIX f begins (R111 steps 1 and 2). -/
def mixStart (f : Word) (s : State) : State := advanced f (record (.psgEndFrame f) s)

/-- MIX completes in the closed frame with the count handed back (R111). -/
theorem mixBody_ok {f : Word} {s t : State} (h : mixBody f s = .ok t) :
    Room f s ∧ ∃ k, walk f (mixStart f s) = .ok k ∧
      t = giveBack (.count (countAnswer (closeFrame f k (mixStart f s))))
        (callSamplesAvailable (closeFrame f k (mixStart f s))) := by
  rcases andThen_cases h with ⟨u, hu, hk⟩ | ⟨e, -, he⟩
  · obtain ⟨hr, rfl⟩ := room_of_advance hu
    unfold walkBody at hk
    split at hk
    · cases hk
      exact ⟨hr, _, ‹_›, rfl⟩
    · cases hk
  · cases he

/-- SAVE completes with both engines asked and the persisted state handed back (R130). -/
theorem saveBody_ok {s t : State} (h : saveBody s = .ok t) :
    t = giveBack (.bytes (persisted s (fmSaveAnswer s) (psgSaveAnswer (callFmSave s))))
      (callPsgSave (callFmSave s)) := by
  unfold saveBody at h
  split at h
  · cases h
  · split at h
    · cases h
    · cases h
      rfl

/-! ### The state in which each execution raises its fault -/

/-- What follows an advance and cannot fail: only the advance faults, before anything is called (R150, R151). -/
theorem andThen_present_error {cyc : Word} {k : State → State} {s t : State} {c : Cause}
    (h : andThen (present cyc s) (fun u => .ok (k u)) = .error (c, t)) : t = noteStamp cyc s := by
  rcases andThen_cases h with ⟨u, -, hk⟩ | ⟨e, he, hr⟩
  · cases hk
  · cases hr
    exact (advance_error he).1

/-- MIX faults in its advance, or in its walk with the deltas before it submitted (R150 to R152). -/
theorem mixBody_error {f : Word} {s t : State} {c : Cause} (h : mixBody f s = .error (c, t)) :
    t = record (.psgEndFrame f) s ∨
      ∃ k, walk f (mixStart f s) = .error k ∧
        t = { mixStart f s with trace := (mixStart f s).trace ++ k.calls } := by
  rcases andThen_cases h with ⟨u, hu, hk⟩ | ⟨e, he, hr⟩
  · obtain ⟨-, rfl⟩ := room_of_advance hu
    unfold walkBody at hk
    split at hk
    · cases hk
    · cases hk
      exact .inr ⟨_, ‹_›, rfl⟩
  · cases hr
    exact .inl (advance_error he).1

/-- SAVE faults after the first blob or after the second (R153). -/
theorem saveBody_error {s t : State} {c : Cause} (h : saveBody s = .error (c, t)) :
    t = callFmSave s ∨ t = callPsgSave (callFmSave s) := by
  unfold saveBody at h
  split at h
  · cases h
    exact .inl rfl
  · split at h
    · cases h
      exact .inr rfl
    · cases h

/-! ### A step is what it takes from the host, and then at most one command -/

/-- The state once items are taken from the host: the configuration now in force, the items left. -/
def taken (c : MixConfig) (rest : List HostItem) (s : State) : State := { s with cfg := c, inbox := rest }

/-- Every next state of a step, from the state that has taken the items: nothing further, a command, or the fault of
an illegal word. -/
theorem step_from_taken {s t : State} (h : step s = .next t) :
    ∃ c rest, t = taken c rest s ∨
      (∃ i, decode s.inbox = .command i rest ∧ exec i (taken c rest s) = .next t) ∨
      t = raiseFault .cmdIllegal (taken c rest s) := by
  rcases step_cases h with rfl | ⟨c, rest, rfl⟩ | ⟨i, rest, hd, he⟩ | ⟨why, rest, -, he⟩
  · exact ⟨t.cfg, t.inbox, .inl rfl⟩
  · exact ⟨c, rest, .inl rfl⟩
  · exact ⟨s.cfg, rest, .inr (.inl ⟨i, hd, he⟩)⟩
  · refine ⟨s.cfg, rest, ?_⟩
    cases hf : s.fault
    · exact .inr (.inr (next_inj.1 (he.symm.trans (illegalCommand_of_ok hf))))
    · exact .inl (next_inj.1 (he.symm.trans (illegalCommand_of_faulted hf)))

/-! ### What an advance leaves alone, field by field -/

@[simp] theorem advanced_var (t : Word) (s : State) : (advanced t s).var = s.var := by simp [advanced_frame]
@[simp] theorem advanced_ratio (t : Word) (s : State) : (advanced t s).ratio = s.ratio := by simp [advanced_frame]
@[simp] theorem advanced_phase (t : Word) (s : State) : (advanced t s).phase = s.phase := by simp [advanced_frame]
@[simp] theorem advanced_fs (t : Word) (s : State) : (advanced t s).fs = s.fs := by simp [advanced_frame]
@[simp] theorem advanced_cl (t : Word) (s : State) : (advanced t s).cl = s.cl := by simp [advanced_frame]
@[simp] theorem advanced_cr (t : Word) (s : State) : (advanced t s).cr = s.cr := by simp [advanced_frame]
@[simp] theorem advanced_last (t : Word) (s : State) : (advanced t s).last = s.last := by simp [advanced_frame]
@[simp] theorem advanced_params (t : Word) (s : State) : (advanced t s).params = s.params := by simp [advanced_frame]
@[simp] theorem advanced_fault (t : Word) (s : State) : (advanced t s).fault = s.fault := by simp [advanced_frame]
@[simp] theorem advanced_results (t : Word) (s : State) : (advanced t s).results = s.results := by
  simp [advanced_frame]

/-! ### The table of access rights -/

/-- Settles O56: what stands around the registers by `body_ok_frame`, each column of the table from the state its
command completes in. -/
theorem commandsWriteOnlyTheirRegisters : Obligations.CommandsWriteOnlyTheirRegisters := by
  intro i s t he hs ht
  obtain ⟨-, hb⟩ := completed_of_exec hs he ht
  obtain ⟨⟨hp, hc, hi, -, hf⟩, -⟩ := body_ok_frame hb
  refine ⟨hc, hp, hi, hf, ?_⟩
  cases i with
  | select => cases hb; simp
  | reset => cases hb; simp
  | advance cyc => obtain ⟨-, rfl⟩ := present_ok hb; simp
  | fmw cyc a d => obtain ⟨-, rfl⟩ := writeBody_ok hb; simp
  | fmr cyc a => obtain ⟨-, rfl⟩ := readBody_ok hb; simp
  | mix f => obtain ⟨-, k, -, rfl⟩ := mixBody_ok hb; simp [mixStart]
  | save => cases saveBody_ok hb; simp
  | load b => cases hb; simp

/-! ### The observation -/

/-- A command that completes hands back at most one value. -/
theorem results_of_completed {i : Instr} {s t : State} (he : exec i s = .next t) (hs : s.fault = false)
    (ht : t.fault = false) : ∃ rs, t.results = s.results ++ rs := by
  obtain ⟨-, -, -, -, hw⟩ := commandsWriteOnlyTheirRegisters i s t he hs ht
  cases i with
  | select => obtain ⟨-, -, -, -, -, -, -, hr⟩ := hw; exact ⟨[], by simp [hr]⟩
  | reset => obtain ⟨-, -, -, hr⟩ := hw; exact ⟨[], by simp [hr]⟩
  | advance cyc => obtain ⟨-, -, -, -, -, -, hr⟩ := hw; exact ⟨[], by simp [hr]⟩
  | fmw cyc a d => obtain ⟨-, -, -, -, -, -, hr⟩ := hw; exact ⟨[], by simp [hr]⟩
  | fmr cyc a => obtain ⟨-, -, -, -, -, -, v, hr⟩ := hw; exact ⟨[.value v], hr⟩
  | mix f => obtain ⟨-, -, -, n, hr⟩ := hw; exact ⟨[.count n], hr⟩
  | save => obtain ⟨-, -, -, -, -, -, -, -, -, -, b, hr⟩ := hw; exact ⟨[.bytes b], hr⟩
  | load b => obtain ⟨-, -, -, -, -, -, -, hr⟩ := hw; exact ⟨[], by simp [hr]⟩

/-- t has the observation of s with something added at its ends, and the build of s (R51, R9). -/
def AddsTo (s t : State) : Prop :=
  (∃ es, t.trace = s.trace ++ es) ∧ (∃ rs, t.results = s.results ++ rs) ∧ t.params = s.params

theorem AddsTo.refl (s : State) : AddsTo s s := ⟨⟨[], by simp⟩, ⟨[], by simp⟩, rfl⟩

theorem raiseFault_addsTo (c : Cause) (s : State) : AddsTo s (raiseFault c s) :=
  ⟨⟨[.fault c], rfl⟩, ⟨[], by simp⟩, rfl⟩

theorem exec_addsTo {i : Instr} {s t : State} (he : exec i s = .next t) : AddsTo s t := by
  obtain ⟨u, hu, h⟩ := exec_cases i s
  cases next_inj.1 (he.symm.trans hu)
  rcases h with ⟨-, rfl⟩ | ⟨-, c, -, rfl⟩ | ⟨hs, -, hb⟩ | ⟨-, -, c, s', hb, rfl⟩
  · exact .refl t
  · exact raiseFault_addsTo c s
  · obtain ⟨⟨hp, -, -, hf, -⟩, es, htr, -⟩ := body_ok_frame hb
    exact ⟨⟨es, htr⟩, results_of_completed he hs (hf.trans hs), hp⟩
  · obtain ⟨-, ⟨hp, -⟩, ⟨es, htr, -⟩, hr⟩ := body_error_frame hb
    exact ⟨⟨es ++ [.fault c], by simp [htr]⟩, ⟨[], by simp [hr]⟩, by simp [hp]⟩

/-- Settles O58: only a command and an illegal word touch the observation. -/
theorem stepsOnlyAddToTheObservation : Obligations.StepsOnlyAddToTheObservation := by
  intro s t h
  obtain ⟨c, rest, rfl | ⟨i, -, he⟩ | rfl⟩ := step_from_taken h
  · exact AddsTo.refl s
  · exact exec_addsTo (s := taken c rest s) he
  · exact raiseFault_addsTo _ (taken c rest s)

end Sys2Proof.Machine
end

