-- ==== Sys2Proof/Proofs/Invariants.lean ====
section
/-! PROOFS. The invariants of 10_state.md §5 hold at power-on and every step keeps them (R46 to R49). Where the block
is live they are facts about numbers (`Scheduled`); with `ceildiv` of a difference that stops at 0, INV3 needs no
case. -/

namespace Sys2Proof.Machine

/-! ### How many pairs a stretch of cycles owes -/

@[simp] theorem ceildiv_zero {b : Nat} (hb : 0 < b) : ceildiv 0 b = 0 :=
  Nat.le_zero.1 ((ceildiv_le_iff hb 0 0).2 (Nat.zero_le _))

/-- A stretch of which k ratios are covered already owes k pairs fewer. -/
theorem add_ceildiv_sub {b : Nat} (hb : 0 < b) {a k : Nat} (hk : k ≤ ceildiv a b) :
    k + ceildiv (a - k * b) b = ceildiv a b := by
  have h (n : Nat) : ceildiv (a - k * b) b ≤ n ↔ ceildiv a b ≤ k + n := by
    rw [ceildiv_le_iff hb, ceildiv_le_iff hb, Nat.add_mul]
    omega
  have h1 := (h _).1 (Nat.le_refl _)
  have h2 := (h (ceildiv a b - k)).2 (by omega)
  omega

theorem ceildiv_mono {a a' b : Nat} (h : a ≤ a') : ceildiv a b ≤ ceildiv a' b :=
  Nat.div_le_div_right (by omega)

/-- An advance owes at least one pair when it is not covered (R104). -/
theorem owed_pos {t : Word} {s : State} (h : s.pt.toNat < t.toNat) : 1 ≤ owed t s := by
  have h0 : ¬ owed t s ≤ 0 := by
    rw [owed, ceildiv_le_iff (cycles_pos _)]
    omega
  omega

/-- A covered advance owes nothing. -/
theorem owed_covered {t : Word} {s : State} (h : t.toNat ≤ s.pt.toNat) : owed t s = 0 := by
  rw [owed, Nat.sub_eq_zero_of_le h, ceildiv_zero (cycles_pos _)]

/-! ### Every call of `FM.generate` -/

/-- Every `FM.generate` among these calls was asked for at least one pair and answered exactly as many (R54, R104). -/
def WellAnswered (es : List Event) : Prop := ∀ n ps, Event.fmGenerate n ps ∈ es → 1 ≤ n ∧ ps.length = n

theorem WellAnswered.append {es fs : List Event} (h : WellAnswered es) (h' : WellAnswered fs) :
    WellAnswered (es ++ fs) := fun n ps hm => (List.mem_append.1 hm).elim (h n ps) (h' n ps)

/-- Calls none of which is a generation. -/
theorem wellAnswered_of_none {es : List Event} (h : ∀ n ps, Event.fmGenerate n ps ∉ es) : WellAnswered es :=
  fun n ps hm => absurd hm (h n ps)

/-! ### The numbers behind the invariants -/

/-- INV2 as numbers (R47). -/
def Spans (s : State) : Prop := s.pt.toNat = s.fs.toNat + s.blen * cycles s.ratio

/-- INV3 as numbers (R48). -/
def Needed (s : State) : Prop := s.blen = ceildiv (s.last.toNat - s.fs.toNat) (cycles s.ratio)

/-- The buffer bound as numbers (R29, R37). -/
def Stored (s : State) : Prop := s.blen ≤ s.params.bufCap ∧ s.blen ≤ s.buf.length

/-- What the invariants say of a live block. -/
structure Scheduled (s : State) : Prop where
  spans : Spans s
  needed : Needed s
  stored : Stored s
  carry : Emitted s.carry

/-- The two cases of INV3 are one `ceildiv`. -/
theorem needed_iff (s : State) :
    Needed s ↔
      s.blen = if s.last.toNat ≤ s.fs.toNat then 0
        else ceildiv (s.last.toNat - s.fs.toNat) (cycles s.ratio) := by
  unfold Needed
  split
  · rw [Nat.sub_eq_zero_of_le ‹_›, ceildiv_zero (cycles_pos _)]
  · rfl

theorem emitted_carry_iff (s : State) :
    Emitted s.carry ↔ |s.cl.toInt| ≤ 21474836 ∧ |s.cr.toInt| ≤ 21474836 := by
  simp only [abs_le, Emitted, State.carry, and_assoc]

theorem Inv.scheduled {s : State} (h : Inv s) (hl : s.Live) : Scheduled s :=
  ⟨h.inv2 hl, (needed_iff s).2 (h.inv3 hl), h.buffer hl, (emitted_carry_iff s).2 (h.carry hl)⟩

/-- The invariants from their numbers. -/
theorem inv_of_scheduled {s : State} (h : s.Live → Scheduled s) (hb : BackendInv s) (hf : FaultInv s)
    (hg : GenerateInv s) : Inv s where
  inv1 hl := ⟨s.blen, (h hl).spans⟩
  inv2 hl := (h hl).spans
  inv3 hl := (needed_iff s).1 (h hl).needed
  buffer hl := (h hl).stored
  backend := hb
  carry hl := (emitted_carry_iff s).1 (h hl).carry
  cause := hf
  generated := hg

/-- Of a faulted block the invariants speak only of the cause and the calls made. -/
theorem inv_of_faulted {s : State} (h : s.fault = true) (hc : ∃ c : Cause, s.fcause = c.code) (hg : GenerateInv s) :
    Inv s :=
  inv_of_scheduled (fun hl => by simp [hl.1] at h) (fun hf => by simp [hf] at h)
    ⟨fun hf => by simp [hf] at h, fun _ => hc⟩ hg

/-- Fault entry keeps the invariants (R155). -/
theorem inv_raiseFault {s : State} (c : Cause) (h : GenerateInv s) : Inv (raiseFault c s) :=
  inv_of_faulted rfl ⟨c, rfl⟩ (WellAnswered.append h (wellAnswered_of_none (by simp)))

theorem inv_raiseFaultDuring {s : State} (c : Cause) (h : GenerateInv s) : Inv (raiseFaultDuring c s) :=
  inv_raiseFault (s := unspecifyRegisters s) c h

/-! ### What an advance keeps -/

theorem advanced_blen (t : Word) (s : State) : (advanced t s).blen = s.blen + owed t s := by
  rcases Nat.lt_or_ge s.pt.toNat t.toNat with h | h
  · rw [advanced_generates h, generate_blen]
  · rw [advanced_covered h, owed_covered h, Nat.add_zero]

/-- The produced span grows by one ratio for each pair (R98). -/
theorem advanced_pt_toNat {t : Word} {s : State} (hr : Room t s) :
    (advanced t s).pt.toNat = s.pt.toNat + owed t s * cycles s.ratio := by
  rcases Nat.lt_or_ge s.pt.toNat t.toNat with h | h
  · exact advanced_pt hr h
  · rw [advanced_covered h, owed_covered h, Nat.zero_mul, Nat.add_zero]

theorem spans_advanced {t : Word} {s : State} (hr : Room t s) (h : Spans s) : Spans (advanced t s) := by
  unfold Spans at h ⊢
  rw [advanced_pt_toNat hr, advanced_blen, advanced_fs, advanced_ratio, h, Nat.add_mul, Nat.add_assoc]

theorem stored_advanced {t : Word} {s : State} (hr : Room t s) (h : Stored s) : Stored (advanced t s) := by
  rcases Nat.lt_or_ge s.pt.toNat t.toNat with hlt | hge
  · rw [advanced_generates hlt]
    refine ⟨(hr hlt).1, ?_⟩
    rw [generate_blen, generate_buf, writePairs_length, drawnPairs_length]
    exact Nat.le_max_right ..
  · rwa [advanced_covered hge]

/-- After an advance to a timestamp not below the last one the buffer holds what the presented span needs (R48). -/
theorem needed_present {cyc : Word} {s : State} (hs : Spans s) (hn : Needed s) (hc : s.last.toNat ≤ cyc.toNat) :
    Needed (advanced cyc (noteStamp cyc s)) := by
  have hk : s.blen ≤ ceildiv (cyc.toNat - s.fs.toNat) (cycles s.ratio) := by
    rw [hn]
    exact ceildiv_mono (by omega)
  have howed : owed cyc s = ceildiv (cyc.toNat - s.fs.toNat - s.blen * cycles s.ratio) (cycles s.ratio) := by
    rw [owed, hs, Nat.sub_add_eq]
  rw [Needed, advanced_blen]
  simp only [advanced_last, advanced_fs, advanced_ratio, noteStamp_last, noteStamp_fs, noteStamp_ratio,
    noteStamp_blen]
  exact (congrArg (s.blen + ·) howed).trans (add_ceildiv_sub (cycles_pos _) hk)

/-- Presenting a timestamp keeps everything the invariants say of a live block (R99). -/
theorem scheduled_present {cyc : Word} {s : State} (h : Scheduled s) (hr : Room cyc s)
    (hc : s.last.toNat ≤ cyc.toNat) : Scheduled (advanced cyc (noteStamp cyc s)) where
  spans := spans_advanced (s := noteStamp cyc s) hr h.spans
  needed := needed_present h.spans h.needed hc
  stored := stored_advanced (s := noteStamp cyc s) hr h.stored
  carry := by simpa [State.carry] using h.carry

/-! ### What the walk keeps -/

/-- The walk goes on from an amplified pair (R124). -/
theorem walkPair_emitted {w : WalkInput} {k k' : Walk} (h : walkPair w k = some k') (hp : Emitted ⟨k.pl, k.pr⟩) :
    Emitted ⟨k'.pl, k'.pr⟩ := by
  by_cases ha : Amplifiable w.pre (readPair w.buf k.i)
  · rw [walkPair_walkedTo ha hp] at h
    cases h
    exact emitted_walkedTo_one ha
  · rw [walkPair_none ha] at h
    cases h

theorem walkWhile_emitted {w : WalkInput} {fuel : Nat} {k k' : Walk} (h : walkWhile w fuel k = .ok k')
    (hp : Emitted ⟨k.pl, k.pr⟩) : Emitted ⟨k'.pl, k'.pr⟩ := by
  induction fuel generalizing k with
  | zero => cases h; exact hp
  | succ fuel ih =>
    unfold walkWhile at h
    split at h
    · split at h
      · exact ih h (walkPair_emitted ‹_› hp)
      · cases h
    · cases h; exact hp

/-- A block whose buffer is empty, whose frame begins where the production stands, and which has seen no timestamp. -/
theorem scheduled_of_fresh {s : State} (hb : s.blen = 0) (hp : s.pt = s.fs) (hl : s.last = 0)
    (hc : Emitted s.carry) : Scheduled s where
  spans := by simp [Spans, hb, hp]
  needed := by simp [Needed, hb, hl, cycles_pos]
  stored := by simp [Stored, hb]
  carry := hc

/-! ### The calls of an advance and of a walk -/

theorem wellAnswered_generateCall (t : Word) (s : State) : WellAnswered (generateCall t s) := by
  intro n ps hm
  unfold generateCall at hm
  split at hm
  · simp only [List.mem_singleton, Event.fmGenerate.injEq] at hm
    obtain ⟨rfl, rfl⟩ := hm
    exact ⟨owed_pos ‹_›, drawnPairs_length _ _⟩
  · cases hm

theorem generateInv_advanced {t : Word} {s : State} (h : GenerateInv s) : GenerateInv (advanced t s) := by
  unfold GenerateInv
  rw [advanced_trace]
  exact WellAnswered.append h (wellAnswered_generateCall t s)

theorem generateInv_mixStart (f : Word) {s : State} (h : GenerateInv s) : GenerateInv (mixStart f s) :=
  generateInv_advanced (WellAnswered.append h (wellAnswered_of_none (by simp)))

/-- The calls of a walk are deltas (R116). -/
theorem wellAnswered_walk {f : Word} {s : State} {k : Walk} (h : walk f s = .ok k ∨ walk f s = .error k) :
    WellAnswered k.calls := by
  obtain ⟨es, he, hs⟩ := walkWhile_calls h
  refine wellAnswered_of_none fun n ps hm => ?_
  rw [he] at hm
  obtain ⟨t, dl, dr, e⟩ := hs _ (by simpa [walkStart] using hm)
  unfold submission at e
  split at e <;> cases e

/-! ### What a completed command keeps -/

/-- A completed execution makes only generations of at least one pair, answered in full. -/
theorem generateInv_of_ok {i : Instr} {s t : State} (hb : bodyOf i s = .ok t) (h : GenerateInv s) : GenerateInv t := by
  have hp (cyc : Word) : GenerateInv (advanced cyc (noteStamp cyc s)) := generateInv_advanced (s := noteStamp cyc s) h
  cases i with
  | select => cases hb; exact WellAnswered.append h (wellAnswered_of_none (by simp))
  | reset => cases hb; exact WellAnswered.append h (wellAnswered_of_none (by simp))
  | advance cyc => obtain ⟨-, rfl⟩ := present_ok hb; exact hp cyc
  | fmw cyc a d =>
    obtain ⟨-, rfl⟩ := writeBody_ok hb
    exact WellAnswered.append (hp cyc) (wellAnswered_of_none (by simp))
  | fmr cyc a =>
    obtain ⟨-, rfl⟩ := readBody_ok hb
    exact WellAnswered.append (hp cyc) (wellAnswered_of_none (by simp))
  | mix f =>
    obtain ⟨-, k, hw, rfl⟩ := mixBody_ok hb
    have hm := WellAnswered.append (generateInv_mixStart f h) (wellAnswered_walk (.inl hw))
    exact (hm.append (wellAnswered_of_none (by simp))).append (wellAnswered_of_none (by simp))
  | save =>
    cases saveBody_ok hb
    exact (WellAnswered.append h (wellAnswered_of_none (by simp))).append (wellAnswered_of_none (by simp))
  | load b => cases hb; exact WellAnswered.append h (wellAnswered_of_none (by simp))

/-- So does an execution that ends in a fault. -/
theorem generateInv_of_error {i : Instr} {s t : State} {c : Cause} (hb : bodyOf i s = .error (c, t))
    (h : GenerateInv s) : GenerateInv t := by
  cases i with
  | select => cases hb
  | reset => cases hb
  | advance cyc => cases (advance_error hb).1; exact h
  | fmw cyc a d => cases andThen_present_error hb; exact h
  | fmr cyc a =>
    cases andThen_present_error (k := fun u => giveBack (.value (readAnswer a u)) (callRead a u)) hb
    exact h
  | mix f =>
    rcases mixBody_error hb with rfl | ⟨k, hw, rfl⟩
    · exact WellAnswered.append h (wellAnswered_of_none (by simp))
    · exact WellAnswered.append (generateInv_mixStart f h) (wellAnswered_walk (.inr hw))
  | save =>
    rcases saveBody_error hb with rfl | rfl
    · exact WellAnswered.append h (wellAnswered_of_none (by simp))
    · exact (WellAnswered.append h (wellAnswered_of_none (by simp))).append (wellAnswered_of_none (by simp))
  | load b => cases hb

/-- SELECT comes to a variant of the table, never to NONE (R88). -/
theorem variantOf_ne_none (p : Params) (hwc : HwClass) (pref : Bool) : variantOf p hwc pref ≠ .noVariant := by
  cases hwc
  · unfold variantOf
    dsimp only
    split <;> simp
  · simp [variantOf]
  · simp [variantOf]

/-- A completed command keeps variant and ratio together: SELECT writes both, RESET leaves PHASE OFF behind only where
it was left already, and no other command touches them (R50). -/
theorem backendInv_of_completed {i : Instr} {s t : State} (he : exec i s = .next t) (hs : s.fault = false)
    (ht : t.fault = false) (h : BackendInv s) : BackendInv t := by
  obtain ⟨hc, hb⟩ := completed_of_exec hs he ht
  obtain ⟨hoff, hon⟩ := h hs
  have keep (hv : t.var = s.var) (hr : t.ratio = s.ratio) (hp : t.phase = s.phase) : BackendInv t := by
    intro _
    rw [hv, hr, hp]
    exact ⟨hoff, hon⟩
  obtain ⟨-, -, -, -, hw⟩ := commandsWriteOnlyTheirRegisters i s t he hs ht
  cases i with
  | select =>
    cases hb
    exact fun _ => ⟨fun h => by simp at h, fun _ => ⟨variantOf_ne_none _ _ _, rfl⟩⟩
  | reset =>
    cases hb
    exact fun _ => ⟨fun h => by simp at h, fun _ => hon (resetCheck_none hc)⟩
  | advance cyc => obtain ⟨hv, hr, hp, -⟩ := hw; exact keep hv hr hp
  | fmw cyc a d => obtain ⟨hv, hr, hp, -⟩ := hw; exact keep hv hr hp
  | fmr cyc a => obtain ⟨hv, hr, hp, -⟩ := hw; exact keep hv hr hp
  | mix f => obtain ⟨hv, hr, hp, -⟩ := hw; exact keep hv hr hp
  | save => obtain ⟨hv, hr, hp, -⟩ := hw; exact keep hv hr hp
  | load b => obtain ⟨hv, hr, hp, -⟩ := hw; exact keep hv hr hp

/-- A completed command that leaves the block live keeps what the invariants say of it. -/
theorem scheduled_of_completed {i : Instr} {s t : State} (hc : checkOf i s = none) (hb : bodyOf i s = .ok t)
    (ht : t.phase = .running) (h : s.phase = .running → Scheduled s) : Scheduled t := by
  cases i with
  | select => cases hb; simp at ht
  | reset => cases hb; exact scheduled_of_fresh rfl rfl rfl (by simp [Emitted, State.carry])
  | advance cyc =>
    obtain ⟨hp, hl⟩ := accessCheck_none.1 hc
    obtain ⟨hr, rfl⟩ := present_ok hb
    exact scheduled_present (h hp) hr hl
  | fmw cyc a d =>
    obtain ⟨hp, hl⟩ := accessCheck_none.1 hc
    obtain ⟨hr, rfl⟩ := writeBody_ok hb
    obtain ⟨h1, h2, h3, h4⟩ := scheduled_present (h hp) hr hl
    exact ⟨h1, h2, h3, h4⟩
  | fmr cyc a =>
    obtain ⟨hp, -, hl⟩ := readCheck_none.1 hc
    obtain ⟨hr, rfl⟩ := readBody_ok hb
    obtain ⟨h1, h2, h3, h4⟩ := scheduled_present (h hp) hr hl
    exact ⟨h1, h2, h3, h4⟩
  | mix f =>
    obtain ⟨hp, -, -⟩ := mixCheck_none.1 hc
    obtain ⟨hr, k, hw, rfl⟩ := mixBody_ok hb
    refine scheduled_of_fresh rfl rfl rfl (walkWhile_emitted hw ?_)
    simpa [walkStart, mixStart, State.carry] using (h hp).carry
  | save =>
    cases saveBody_ok hb
    obtain ⟨h1, h2, h3, h4⟩ := h (saveCheck_none.1 hc).1
    exact ⟨h1, h2, h3, h4⟩
  | load b =>
    obtain ⟨hp, h0, -, -⟩ := loadCheck_none.1 hc
    cases hb
    exact scheduled_of_fresh h0 rfl rfl (h hp).carry

/-! ### The invariants -/

/-- Every command keeps the invariants: it leaves them as they are, raises a fault, or completes. -/
theorem inv_exec {i : Instr} {s t : State} (h : Inv s) (he : exec i s = .next t) : Inv t := by
  obtain ⟨u, hu, hcase⟩ := exec_cases i s
  cases next_inj.1 (he.symm.trans hu)
  rcases hcase with ⟨-, rfl⟩ | ⟨-, c, -, rfl⟩ | ⟨hs, hc, hb⟩ | ⟨-, -, c, s', hb, rfl⟩
  · exact h
  · exact inv_raiseFault c h.generated
  · obtain ⟨⟨-, -, -, hf, hfc⟩, -⟩ := body_ok_frame hb
    have ht : t.fault = false := hf.trans hs
    refine inv_of_scheduled (fun hl => scheduled_of_completed hc hb hl.2 fun hp => h.scheduled ⟨hs, hp⟩)
      (backendInv_of_completed he hs ht h.backend) ?_ (generateInv_of_ok hb h.generated)
    unfold FaultInv
    rw [hf, hfc]
    exact h.cause
  · exact inv_raiseFaultDuring c (generateInv_of_error hb h.generated)

theorem inv_taken {s : State} (c : MixConfig) (rest : List HostItem) (h : Inv s) : Inv (taken c rest s) := by
  obtain ⟨h1, h2, h3, h4, h5, h6, h7, h8⟩ := h
  exact ⟨h1, h2, h3, h4, h5, h6, h7, h8⟩

/-- Settles O53: taking items from the host touches no register, and the rest is `inv_exec` and fault entry. -/
theorem stepKeepsTheInvariants : Obligations.StepKeepsTheInvariants := by
  intro s t h hstep
  obtain ⟨c, rest, rfl | ⟨i, -, he⟩ | rfl⟩ := step_from_taken hstep
  · exact inv_taken c rest h
  · exact inv_exec (inv_taken c rest h) he
  · exact inv_raiseFault _ h.generated

/-- Settles O54: the block is not live at power-on, it has no variant, no cause and no call yet. -/
theorem powerOnHasTheInvariants : Obligations.PowerOnHasTheInvariants :=
  inv_of_scheduled (fun hl => by cases hl.2)
    (fun _ => ⟨fun _ => rfl, fun h => absurd rfl h⟩)
    ⟨fun _ => rfl, fun h => by cases h⟩
    (wellAnswered_of_none (by simp [State.reset]))

/-! ### The residual -/

/-- The walk of a frame that begins with a residual below the ratio ends less than a ratio beyond the frame (R115). -/
theorem walk_end_lt {f : Word} {s : State} {k : Walk} (hw : walk f s = .ok k) (h : s.fs.toNat < cycles s.ratio) :
    k.t - f.toNat < cycles s.ratio := by
  obtain ⟨m, ht, -, -, hlt, -, -⟩ := walkWhile_runs hw
  simp only [walkInput, walkStart] at ht hlt
  rcases hlt with hlt | rfl <;> omega

/-- A completed command that leaves the block live keeps the residual below the ratio, when a LOAD loads such a one. -/
theorem residual_of_completed {i : Instr} {s t : State} (hc : checkOf i s = none) (hb : bodyOf i s = .ok t)
    (ht : t.phase = .running) (h : s.phase = .running → s.fs.toNat < cycles s.ratio)
    (hload : ∀ b, i = .load b → (fsPart s.params s.var b).toNat < cycles s.ratio) :
    t.fs.toNat < cycles t.ratio := by
  cases i with
  | select => cases hb; simp at ht
  | reset => cases hb; exact cycles_pos s.ratio
  | advance cyc =>
    obtain ⟨-, rfl⟩ := present_ok hb
    simpa using h (accessCheck_none.1 hc).1
  | fmw cyc a d =>
    obtain ⟨-, rfl⟩ := writeBody_ok hb
    simpa using h (accessCheck_none.1 hc).1
  | fmr cyc a =>
    obtain ⟨-, rfl⟩ := readBody_ok hb
    simpa using h (readCheck_none.1 hc).1
  | mix f =>
    obtain ⟨-, k, hw, rfl⟩ := mixBody_ok hb
    have hend := walk_end_lt hw (by simpa [mixStart] using h (mixCheck_none.1 hc).1)
    simp only [giveBack_fs, giveBack_ratio, callSamplesAvailable_fs, callSamplesAvailable_ratio, closeFrame_fs,
      closeFrame_ratio, BitVec.toNat_ofNat]
    exact Nat.lt_of_le_of_lt (Nat.mod_le _ _) hend
  | save => cases saveBody_ok hb; exact h (saveCheck_none.1 hc).1
  | load b => cases hb; exact hload b rfl

/-- Settles O55: every step that is no command leaves residual and ratio alone or faults, and so does a command that
does not complete. -/
theorem residualStaysBelowTheRatio : Obligations.ResidualStaysBelowTheRatio := by
  intro s t _ h4 hload hstep hlive
  obtain ⟨c, rest, rfl | ⟨i, hd, he⟩ | rfl⟩ := step_from_taken hstep
  · exact h4 hlive
  · cases hs : s.fault
    · obtain ⟨hc, hb⟩ := completed_of_exec (s := taken c rest s) hs he hlive.1
      exact residual_of_completed hc hb hlive.2 (fun hp => h4 ⟨hs, hp⟩)
        fun b hi => hload b rest (hi ▸ hd)
    · cases next_inj.1 (he.symm.trans (exec_of_faulted (s := taken c rest s) hs))
      exact h4 hlive
  · cases hlive.1

end Sys2Proof.Machine
end

