-- ==== Sys2Proof/Proofs/TwoRuns.lean ====
section
/-! PROOFS. Two blocks side by side (R21, R28, R37, R114, R183): they agree in every register and in the answers to
come, and differ in the configuration, in buffer cells and in what was observed before. One relation, `Alike`, with
one lemma for each operation, serves the statement about configuration inputs and the one about stale pairs and
history. -/

namespace Sys2Proof.Machine

/-! ### The relation -/

/-- How the buffers of two blocks with the same write position may differ, as a relation that every operation on the
buffer keeps: it relates equal buffers, may forget cells when the buffer is emptied, and survives a write (R54). -/
structure BufferRelation (K : Nat → List Pair → List Pair → Prop) : Prop where
  refl : ∀ n buf, K n buf buf
  empty : ∀ {n buf buf'}, K n buf buf' → K 0 buf buf'
  write : ∀ {n buf buf'} (ps : List Pair), K n buf buf' →
    K (n + ps.length) (writePairs buf n ps) (writePairs buf' n ps)

/-- The state s as the second block has it: its own buffer, the configuration and the host's items of b, and the same
observations es and rs added to those of b. -/
def beside (b : State) (buf : List Pair) (es : List Event) (rs : List HostResult) (s : State) : State :=
  { s with buf := buf, cfg := b.cfg, inbox := b.inbox, trace := b.trace ++ es, results := b.results ++ rs }

/-- Two blocks begun in a and b now stand in s and s': alike in every register and in the answers to come, buffers
related by K, and the same calls and results added on either side. -/
def Alike (K : Nat → List Pair → List Pair → Prop) (a b s s' : State) : Prop :=
  ∃ buf es rs, s' = beside b buf es rs s ∧ K s.blen s.buf buf ∧ s.trace = a.trace ++ es ∧
    s.results = a.results ++ rs ∧ s.cfg = a.cfg ∧ s.inbox = a.inbox

section Operations
variable {K : Nat → List Pair → List Pair → Prop} {a b s s' : State}

theorem Alike.fault_eq (h : Alike K a b s s') : s'.fault = s.fault := by
  obtain ⟨_, _, _, rfl, _⟩ := h
  rfl

theorem Alike.checkOf_eq (h : Alike K a b s s') (i : Instr) : checkOf i s' = checkOf i s := by
  obtain ⟨_, _, _, rfl, _⟩ := h
  cases i <;> rfl

/-- The same calls recorded on either side. -/
theorem Alike.calls (h : Alike K a b s s') (cs : List Event) :
    Alike K a b { s with trace := s.trace ++ cs } { s' with trace := s'.trace ++ cs } := by
  obtain ⟨buf, es, rs, rfl, hk, ht, hrest⟩ := h
  exact ⟨buf, es ++ cs, rs, by simp [beside], hk, by simp [ht], hrest⟩

theorem Alike.record (h : Alike K a b s s') (e : Event) : Alike K a b (record e s) (record e s') := h.calls [e]

theorem Alike.giveBack (h : Alike K a b s s') (r : HostResult) : Alike K a b (giveBack r s) (giveBack r s') := by
  obtain ⟨buf, es, rs, rfl, hk, ht, hr, hrest⟩ := h
  exact ⟨buf, es, rs ++ [r], by simp [beside, Machine.giveBack], hk, ht, by simp [hr], hrest⟩

theorem Alike.noteStamp (h : Alike K a b s s') (cyc : Word) : Alike K a b (noteStamp cyc s) (noteStamp cyc s') := by
  obtain ⟨buf, es, rs, rfl, hrest⟩ := h
  exact ⟨buf, es, rs, rfl, hrest⟩

theorem Alike.callRead (h : Alike K a b s s') (x : Byte) :
    Alike K a b (callRead x s) (callRead x s') ∧ readAnswer x s' = readAnswer x s := by
  obtain ⟨buf, es, rs, rfl, hk, ht, hrest⟩ := h
  exact ⟨⟨buf, es ++ [.fmRead x (readAnswer x s)], rs, by simp [beside, Machine.callRead, readAnswer], hk,
    by simp [ht], hrest⟩, rfl⟩

theorem Alike.callFmSave (h : Alike K a b s s') :
    Alike K a b (callFmSave s) (callFmSave s') ∧ fmSaveAnswer s' = fmSaveAnswer s := by
  obtain ⟨buf, es, rs, rfl, hk, ht, hrest⟩ := h
  exact ⟨⟨buf, es ++ [.fmSaveState (fmSaveAnswer s)], rs, by simp [beside, Machine.callFmSave, fmSaveAnswer], hk,
    by simp [ht], hrest⟩, rfl⟩

theorem Alike.callPsgSave (h : Alike K a b s s') :
    Alike K a b (callPsgSave s) (callPsgSave s') ∧ psgSaveAnswer s' = psgSaveAnswer s := by
  obtain ⟨buf, es, rs, rfl, hk, ht, hrest⟩ := h
  exact ⟨⟨buf, es ++ [.psgSaveState (psgSaveAnswer s)], rs, by simp [beside, Machine.callPsgSave, psgSaveAnswer], hk,
    by simp [ht], hrest⟩, rfl⟩

theorem Alike.callSamplesAvailable (h : Alike K a b s s') :
    Alike K a b (callSamplesAvailable s) (callSamplesAvailable s') ∧ countAnswer s' = countAnswer s := by
  obtain ⟨buf, es, rs, rfl, hk, ht, hrest⟩ := h
  exact ⟨⟨buf, es ++ [.rsSamplesAvailable (countAnswer s)], rs,
    by simp [beside, Machine.callSamplesAvailable, countAnswer], hk, by simp [ht], hrest⟩, rfl⟩

theorem Alike.loadLayout (h : Alike K a b s s') (bs : List Byte) :
    Alike K a b (loadLayout bs s) (loadLayout bs s') := by
  obtain ⟨buf, es, rs, rfl, hk, ht, hrest⟩ := h
  exact ⟨buf, es ++ [.fmLoadState (fmPart s.params s.var bs), .psgLoadState (psgPart s.params s.var bs)], rs,
    by simp [beside, Machine.loadLayout], hk, by simp [ht], hrest⟩

theorem Alike.raiseFault (h : Alike K a b s s') (c : Cause) :
    Alike K a b (raiseFault c s) (raiseFault c s') := by
  obtain ⟨buf, es, rs, rfl, hk, ht, hrest⟩ := h
  exact ⟨buf, es ++ [.fault c], rs, by simp [beside, Machine.raiseFault, Machine.record], hk, by simp [ht], hrest⟩

/-- SELECT reads HWC, PREF and DAC (R89). -/
theorem Alike.selectBackend (h : Alike K a b s s')
    (hc : b.cfg.hwc = a.cfg.hwc ∧ b.cfg.pref = a.cfg.pref ∧ b.cfg.dac = a.cfg.dac) :
    Alike K a b (selectBackend s) (selectBackend s') := by
  obtain ⟨buf, es, rs, rfl, hk, ht, hr, hcfg, hi⟩ := h
  obtain ⟨h1, h2, h3⟩ := hc
  refine ⟨buf, es ++ [.fmBind (variantOf s.params s.cfg.hwc s.cfg.pref)
    (dacArgument (variantOf s.params s.cfg.hwc s.cfg.pref) s.cfg.dac), .psgInit (psgMode s.params s.cfg.hwc), .fmReset,
    .psgReset], rs, ?_, hk, by simp [ht], hr, hcfg, hi⟩
  simp [beside, Machine.selectBackend, hcfg, h1, h2, h3]

variable (hK : BufferRelation K)
include hK

theorem Alike.generate (h : Alike K a b s s') (n : Nat) : Alike K a b (generate n s) (generate n s') := by
  obtain ⟨buf, es, rs, rfl, hk, ht, hrest⟩ := h
  refine ⟨writePairs buf s.blen (drawnPairs n s), es ++ [.fmGenerate n (drawnPairs n s)], rs, ?_, ?_, ?_, hrest⟩
  · simp [beside, Machine.generate, dropPairs, Machine.record, drawnPairs]
  · simpa using hK.write (drawnPairs n s) hk
  · simp [ht]

theorem Alike.closeFrame (h : Alike K a b s s') (f : Word) (k : Walk) :
    Alike K a b (closeFrame f k s) (closeFrame f k s') := by
  obtain ⟨buf, es, rs, rfl, hk, ht, hrest⟩ := h
  exact ⟨buf, es ++ k.calls ++ [.rsEndFrame f], rs, by simp [beside, Machine.closeFrame], hK.empty hk, by simp [ht],
    hrest⟩

/-- The registers after a fault during execution are drawn alike (R156; log entry 7). -/
theorem Alike.raiseFaultDuring (h : Alike K a b s s') (c : Cause) :
    Alike K a b (raiseFaultDuring c s) (raiseFaultDuring c s') := by
  obtain ⟨buf, es, rs, rfl, -, hrest⟩ := h
  exact Alike.raiseFault (s := unspecifyRegisters s) ⟨_, es, rs, rfl, hK.refl _ _, hrest⟩ c

/-- RESET reads PSGPRE (R91). -/
theorem Alike.resetScheduler (h : Alike K a b s s') (hc : b.cfg.psgpre = a.cfg.psgpre) :
    Alike K a b (resetScheduler s) (resetScheduler s') := by
  obtain ⟨buf, es, rs, rfl, hk, ht, hr, hcfg, hi⟩ := h
  refine ⟨buf, es ++ [.fmReset, .psgReset, .psgConfigure s.params.psgChmask s.cfg.psgpre s.params.psgVolmask], rs, ?_,
    hK.empty hk, by simp [ht], hr, hcfg, hi⟩
  simp [beside, Machine.resetScheduler, hcfg, hc]

end Operations

/-! ### Executions side by side -/

/-- Two executions end alike: both complete, or both raise the same cause, in related states. -/
inductive EndAlike (R : State → State → Prop) : Attempt → Attempt → Prop
  | ok {s s' : State} : R s s' → EndAlike R (.ok s) (.ok s')
  | error {c : Cause} {s s' : State} : R s s' → EndAlike R (.error (c, s)) (.error (c, s'))

/-- Going on from executions that end alike. -/
theorem EndAlike.andThen {R : State → State → Prop} {x x' : Attempt} {k : State → Attempt} (h : EndAlike R x x')
    (hk : ∀ s s', x = .ok s → R s s' → EndAlike R (k s) (k s')) : EndAlike R (andThen x k) (andThen x' k) := by
  cases h with
  | ok hr => exact hk _ _ rfl hr
  | error hr => exact .error hr

/-- The configuration inputs a command reads are the same in c and c' (R21, R28). -/
def SameInputs (i : Instr) (c c' : MixConfig) : Prop :=
  match i with
  | .select => c'.hwc = c.hwc ∧ c'.pref = c.pref ∧ c'.dac = c.dac
  | .reset => c'.psgpre = c.psgpre
  | .mix _ => c'.fmpre = c.fmpre ∧ c'.hq = c.hq
  | .advance _ | .fmw _ _ _ | .fmr _ _ | .save | .load _ => True

/-- The walk of MIX f in s reads no cell in which a buffer related to that of s differs from it. -/
def WalkReadsAlike (K : Nat → List Pair → List Pair → Prop) (f : Word) (s : State) : Prop :=
  ∀ buf, K s.blen s.buf buf →
    ∀ j, s.fs.toNat + j * cycles s.ratio < f.toNat → readPair buf j = readPair s.buf j

/-- A walk depends on no cell but those it reads. -/
theorem walkWhile_congr_cells {w : WalkInput} {buf : List Pair} (fuel : Nat) {k : Walk}
    (h : ∀ j, k.t + j * w.step < w.frame → readPair buf (k.i + j) = readPair w.buf (k.i + j)) :
    walkWhile { w with buf := buf } fuel k = walkWhile w fuel k := by
  induction fuel generalizing k with
  | zero => rfl
  | succ fuel ih =>
    unfold walkWhile
    by_cases hlt : k.t < w.frame
    · have hpair : walkPair { w with buf := buf } k = walkPair w k := by
        have h0 := h 0 (by simpa using hlt)
        simp only [Nat.add_zero] at h0
        simp only [walkPair, h0]
      rw [if_pos hlt, if_pos hlt, hpair]
      cases hw : walkPair w k with
      | none => rfl
      | some k' =>
        obtain ⟨ht, hi, -⟩ := walkPair_moves hw
        refine ih fun j hj => ?_
        rw [hi, Nat.add_assoc, Nat.add_comm 1 j]
        exact h (j + 1) (by rw [Nat.succ_mul]; omega)
    · rw [if_neg hlt, if_neg hlt]

section Commands
variable {K : Nat → List Pair → List Pair → Prop} {a b s s' : State}

theorem Alike.walk_eq (h : Alike K a b s s') {f : Word} (hc : SameInputs (.mix f) a.cfg b.cfg)
    (hr : WalkReadsAlike K f s) : walk f s' = walk f s := by
  obtain ⟨buf, es, rs, rfl, hk, -, -, hcfg, -⟩ := h
  obtain ⟨hpre, hhq⟩ := hc
  have hw : walkInput f (beside b buf es rs s) = { walkInput f s with buf := buf } := by
    simp [walkInput, beside, hcfg, hpre, hhq]
  unfold walk
  rw [hw]
  refine walkWhile_congr_cells _ fun j hj => ?_
  simpa [walkStart, walkInput] using hr buf hk j hj

/-- SAVE asks the engines alike (R130). -/
theorem Alike.saveBody (h : Alike K a b s s') : EndAlike (Alike K a b) (saveBody s) (saveBody s') := by
  obtain ⟨h1, e1⟩ := h.callFmSave
  obtain ⟨h2, e2⟩ := h1.callPsgSave
  have hregs : s'.params = s.params ∧ s'.var = s.var ∧ s'.fs = s.fs := by
    obtain ⟨_, _, _, rfl, _⟩ := h
    exact ⟨rfl, rfl, rfl⟩
  obtain ⟨hpar, hvar, hfs⟩ := hregs
  simp only [Machine.saveBody, persisted, e1, e2, hpar, hvar, hfs]
  split
  · exact .error h1
  · split
    · exact .error h2
    · exact .ok (h2.giveBack _)

variable (hK : BufferRelation K)
include hK

/-- An advance owes, overflows and generates alike (R98). -/
theorem Alike.advance (h : Alike K a b s s') (t : Word) :
    EndAlike (Alike K a b) (advance t s) (advance t s') := by
  have hd : s'.pt = s.pt ∧ owed t s' = owed t s ∧ bufferOverflows (owed t s) s' = bufferOverflows (owed t s) s ∧
      counterOverflows (owed t s) s' = counterOverflows (owed t s) s := by
    obtain ⟨_, _, _, rfl, _⟩ := h
    exact ⟨rfl, rfl, rfl, rfl⟩
  obtain ⟨hpt, ho, hb, hc⟩ := hd
  unfold Machine.advance
  rw [hpt, ho, hb, hc]
  split
  · split
    · exact .error h
    · split
      · exact .error h
      · exact .ok (h.generate hK _)
  · exact .ok h

/-- The walk of MIX and the closed frame after it (R111 steps 3 to 8). -/
theorem Alike.walkBody (h : Alike K a b s s') {f : Word} (hc : SameInputs (.mix f) a.cfg b.cfg)
    (hr : WalkReadsAlike K f s) : EndAlike (Alike K a b) (walkBody f s) (walkBody f s') := by
  unfold Machine.walkBody
  rw [h.walk_eq hc hr]
  split
  · rename_i k _
    obtain ⟨h1, e1⟩ := (h.closeFrame hK f k).callSamplesAvailable
    rw [e1]
    exact .ok (h1.giveBack _)
  · exact .error (h.calls _)

/-- Every execution ends alike in two blocks that are alike, when the inputs the command reads are the same and MIX's
walk reads no cell in which the buffers may differ. -/
theorem Alike.bodyOf (h : Alike K a b s s') {i : Instr} (hc : SameInputs i a.cfg b.cfg)
    (hr : ∀ f, i = .mix f → Room f s → WalkReadsAlike K f (mixStart f s)) :
    EndAlike (Alike K a b) (bodyOf i s) (bodyOf i s') := by
  have hpres (cyc : Word) : EndAlike (Alike K a b) (present cyc s) (present cyc s') :=
    (h.noteStamp cyc).advance hK cyc
  cases i with
  | select => exact .ok (h.selectBackend hc)
  | reset => exact .ok (h.resetScheduler hK hc)
  | advance cyc => exact hpres cyc
  | fmw cyc x d => exact (hpres cyc).andThen fun _ _ _ hu => .ok (hu.record _)
  | fmr cyc x =>
    refine (hpres cyc).andThen fun u u' _ hu => ?_
    obtain ⟨h1, e1⟩ := hu.callRead x
    rw [e1]
    exact .ok (h1.giveBack _)
  | mix f =>
    refine ((h.record _).advance hK f).andThen fun u u' hu hu' => hu'.walkBody hK hc ?_
    obtain ⟨hroom, rfl⟩ := room_of_advance hu
    exact hr f rfl hroom
  | save => exact h.saveBody
  | load bs => exact .ok (h.loadLayout bs)

/-- A command takes two blocks that are alike to two that are alike: refused, checked, executed and faulted alike. -/
theorem Alike.exec (h : Alike K a b s s') {i : Instr} (hc : SameInputs i a.cfg b.cfg)
    (hr : ∀ f, i = .mix f → s.Live → Room f s → WalkReadsAlike K f (mixStart f s)) :
    ∃ t t', exec i s = .next t ∧ exec i s' = .next t' ∧ Alike K a b t t' := by
  cases hf : s.fault
  · have hf' : s'.fault = false := h.fault_eq.trans hf
    cases hck : checkOf i s with
    | some c => exact ⟨_, _, exec_checked hf hck, exec_checked hf' ((h.checkOf_eq i).trans hck), h.raiseFault c⟩
    | none =>
      have hck' : checkOf i s' = none := (h.checkOf_eq i).trans hck
      have hlive (f : Word) (hi : i = .mix f) : s.Live := by
        subst hi
        exact ⟨hf, (mixCheck_none.1 hck).1⟩
      generalize hb : Machine.bodyOf i s = x, hb' : Machine.bodyOf i s' = x'
      have hend := h.bodyOf hK hc fun f hi => hr f hi (hlive f hi)
      rw [hb, hb'] at hend
      cases hend with
      | ok hu => exact ⟨_, _, exec_ok hf hck hb, exec_ok hf' hck' hb', hu⟩
      | error hu => exact ⟨_, _, exec_error hf hck hb, exec_error hf' hck' hb', hu.raiseFaultDuring hK _⟩
  · exact ⟨s, s', exec_of_faulted hf, exec_of_faulted (h.fault_eq.trans hf), h⟩

end Commands

/-! ### Configuration inputs -/

/-- Equal buffers. -/
def SameBuffer (_ : Nat) (buf buf' : List Pair) : Prop := buf' = buf

theorem sameBuffer_relation : BufferRelation SameBuffer where
  refl _ _ := rfl
  empty h := h
  write _ h := by rw [SameBuffer, h]

/-- A block and the same block with another configuration, before anything has run. -/
theorem alike_withConfig (s : State) (c : MixConfig) : Alike SameBuffer s { s with cfg := c } s { s with cfg := c } :=
  ⟨s.buf, [], [], by simp [beside], rfl, by simp, by simp, rfl, rfl⟩

/-- Two blocks that differed in the configuration alone still do. -/
theorem eq_of_alike_withConfig {s t t' : State} {c : MixConfig}
    (h : Alike SameBuffer s { s with cfg := c } t t') : t' = { t with cfg := c } := by
  obtain ⟨buf, es, rs, rfl, hb, ht, hr, -, hi⟩ := h
  simp only [beside, SameBuffer] at hb ⊢
  rw [hb, ← ht, ← hr, ← hi]

/-- Settles O57: MIX's walk reads the same cells since the buffers are equal. -/
theorem commandsReadOnlyTheirInputs : Obligations.CommandsReadOnlyTheirInputs := by
  intro i s c hsel hres hmix
  have hc : SameInputs i s.cfg c := by
    cases i with
    | select => exact hsel rfl
    | reset => exact hres rfl
    | mix f => exact hmix ⟨f, rfl⟩
    | advance | fmw | fmr | save | load => trivial
  obtain ⟨t, t', he, he', h⟩ := (alike_withConfig s c).exec sameBuffer_relation hc
    fun f _ _ _ buf hb j _ => by rw [hb]
  rw [he, he', eq_of_alike_withConfig h]
  rfl

/-! ### Stale pairs and history -/

/-- Buffers that agree in the pairs below the write position (R37). -/
def SameBelow (n : Nat) (buf buf' : List Pair) : Prop := ∀ i, i < n → readPair buf i = readPair buf' i

theorem sameBelow_relation : BufferRelation SameBelow where
  refl _ _ _ _ := rfl
  empty _ _ h := absurd h (Nat.not_lt_zero _)
  write {n buf buf'} ps h i hi := by
    rcases Nat.lt_or_ge i n with hlt | hge
    · rw [readPair_writePairs_outside _ _ _ _ (.inl hlt), readPair_writePairs_outside _ _ _ _ (.inl hlt), h i hlt]
    · obtain ⟨j, rfl⟩ := Nat.exists_eq_add_of_le hge
      have hj : j < ps.length := by omega
      rw [readPair_writePairs_inside _ _ _ _ hj, readPair_writePairs_inside _ _ _ _ hj]

/-- An advance that has room reaches its timestamp (R98). -/
theorem le_advanced_pt {t : Word} {s : State} (hr : Room t s) : t.toNat ≤ (advanced t s).pt.toNat := by
  have := (ceildiv_le_iff (cycles_pos s.ratio) (t.toNat - s.pt.toNat) (owed t s)).1 (Nat.le_refl _)
  rw [advanced_pt_toNat hr]
  omega

/-- The walk of MIX reads valid pairs only, since the produced span reaches the frame's end (R114). -/
theorem walkReadsAlike_of_spans {f : Word} {s : State} (h : Spans s) (hr : Room f s) :
    WalkReadsAlike SameBelow f (mixStart f s) := by
  intro buf hb j hj
  have hspan : Spans (mixStart f s) := spans_advanced (s := record (.psgEndFrame f) s) hr h
  have hend : f.toNat ≤ (mixStart f s).pt.toNat := le_advanced_pt (s := record (.psgEndFrame f) s) hr
  rw [Spans] at hspan
  refine (hb j (Nat.lt_of_mul_lt_mul_right (a := cycles (mixStart f s).ratio) ?_)).symm
  omega

/-- Two blocks that are the same in everything to come, before anything has run. -/
theorem alike_of_sameToCome {s s' : State} (h : SameToCome s s') : Alike SameBelow s s' s s' := by
  obtain ⟨heq, hcells⟩ := h
  have hcfg : s'.cfg = s.cfg := by rw [heq]
  refine ⟨s'.buf, [], [], ?_, hcells, by simp, by simp, rfl, rfl⟩
  simpa [beside, hcfg] using heq

/-- Two blocks that were the same in everything to come still are. -/
theorem sameToCome_of_alike {s s' t t' : State} (hc : s'.cfg = s.cfg) (h : Alike SameBelow s s' t t') :
    SameToCome t t' := by
  obtain ⟨buf, es, rs, rfl, hcells, -, -, hcfg, -⟩ := h
  refine ⟨?_, hcells⟩
  simp [beside, hc, hcfg]

/-- A sequence of commands takes blocks that are alike to blocks that are alike; the invariants, which every command
keeps, bound what each MIX reads. -/
theorem Alike.runCommands {a b : State} (hc : b.cfg = a.cfg) (is : List Instr) {s s' : State} (hi : Inv s)
    (h : Alike SameBelow a b s s') :
    ∃ t t', runCommands is s = .next t ∧ runCommands is s' = .next t' ∧ Alike SameBelow a b t t' := by
  induction is generalizing s s' with
  | nil => exact ⟨s, s', rfl, rfl, h⟩
  | cons i is ih =>
    have hin : SameInputs i a.cfg b.cfg := by
      rw [hc]
      cases i <;> simp [SameInputs]
    obtain ⟨u, u', he, he', hu⟩ := h.exec sameBelow_relation hin
      fun f _ hl hr => walkReadsAlike_of_spans (hi.inv2 hl) hr
    obtain ⟨t, t', hrun, hrun', ht⟩ := ih (inv_exec hi he) hu
    refine ⟨t, t', ?_, ?_, ht⟩
    · rw [Machine.runCommands, he]
      exact hrun
    · rw [Machine.runCommands, he']
      exact hrun'

/-- Settles O59: the sequence keeps `Alike`, which says what both sides have added. -/
theorem stalePairsAndHistoryMakeNoDifference : Obligations.StalePairsAndHistoryMakeNoDifference := by
  intro is s s' hi _ h
  have hc : s'.cfg = s.cfg := by rw [h.1]
  obtain ⟨t, t', hrun, hrun', ht⟩ := (alike_of_sameToCome h).runCommands hc is hi
  have hsame := sameToCome_of_alike hc ht
  obtain ⟨buf, es, rs, rfl, -, htr, hres, -, -⟩ := ht
  exact ⟨t, _, es, rs, hrun, hrun', hsame, htr, rfl, hres, rfl⟩

end Sys2Proof.Machine
end

