-- ==== Sys2Proof/Proofs/Generate.lean ====
section
/-! PROOFS. The buffer cells `FM.generate(n)` writes and those it leaves alone (R54), and the ADVANCE that calls it. -/

namespace Sys2Proof.Machine

/-! ### Cells of the buffer after a generate -/

/-- The cells from the write position on hold the pairs answered, in order (R54). -/
theorem readPair_generate_inside {n j : Nat} (h : j < n) (s : State) :
    some (readPair (generate n s).buf (s.blen + j)) = (drawnPairs n s)[j]? := by
  have hj : j < (drawnPairs n s).length := by rwa [drawnPairs_length]
  rw [generate_buf, readPair_writePairs_inside _ _ _ _ hj, List.getElem?_eq_getElem hj]

/-- Every other cell reads as before (R54). -/
theorem readPair_generate_outside {n i : Nat} {s : State} (h : i < s.blen ∨ s.blen + n ≤ i) :
    readPair (generate n s).buf i = readPair s.buf i :=
  readPair_writePairs_outside _ _ _ _ (by rwa [drawnPairs_length])

/-! ### ADVANCE -/

/-- A timestamp in order on a live state, with room, completes the advance to it (R99). -/
theorem exec_advance_of_room {cyc : Word} {s : State} (hl : s.Live) (hle : s.last.toNat ≤ cyc.toNat)
    (hr : Room cyc s) : exec (.advance cyc) s = .next (advanced cyc (noteStamp cyc s)) :=
  exec_ok hl.1 (accessCheck_none.2 ⟨hl.2, hle⟩) (present_of_room hr)

/-- Settles O27: noting the timestamp touches neither the buffer nor the answers, and the advance after it is a
generate of the owed pairs. -/
theorem generateWritesOnlyItsCells : Obligations.GenerateWritesOnlyItsCells := by
  intro cyc s hl hle hlt hr
  refine ⟨generate (owed cyc s) (noteStamp cyc s), ?_, rfl,
    fun j hj => readPair_generate_inside hj (noteStamp cyc s), fun i => readPair_generate_outside⟩
  rw [exec_advance_of_room hl hle hr]
  exact congrArg Host.Outcome.next (advanced_generates (s := noteStamp cyc s) hlt)

end Sys2Proof.Machine
end

