-- ==== Sys2Proof/Proofs/DecodeWord.lean ====
section
/-! PROOFS. Which command words are legal (R75) and what a legal word decodes to (R71, R73). One walk through
`decodeWord` serves every statement about it. -/

namespace Sys2Proof

/-! ### Legal words (R75) -/

/-- None of the conditions of R75 holds of the word. -/
structure LegalWord (w0 : Word) : Prop where
  rsv0 : rsv0Field w0 = 0
  rsv1 : rsv1Field w0 = 0
  op : opField w0 ≠ 0 ∧ (opField w0).toNat < 9
  address : aField w0 = 0 ∨ opField w0 = 4 ∨ opField w0 = 5
  data : dField w0 = 0 ∨ opField w0 = 4

/-- The command word of every command is legal (R70, R77). -/
theorem legalWord_commandWord (i : Instr) : LegalWord i.commandWord := by
  obtain ⟨d, a, hw⟩ := commandWord_packed i
  refine ⟨by rw [hw, rsv0Field_packWord], by rw [hw, rsv1Field_packWord], ?_, ?_, ?_⟩
  · rw [opField_commandWord]
    cases i <;> simp [Instr.opcode]
  · cases i <;> simp [Instr.commandWord]
  · cases i <;> simp [Instr.commandWord]

/-- The conditions of R75 are those under which a word is not legal. -/
theorem not_legalWord_iff (w0 : Word) : ¬ LegalWord w0 ↔
    (opField w0 = 0 ∨ 9 ≤ (opField w0).toNat) ∨ rsv0Field w0 ≠ 0 ∨ rsv1Field w0 ≠ 0 ∨
      (aField w0 ≠ 0 ∧ opField w0 ≠ 4 ∧ opField w0 ≠ 5) ∨ (dField w0 ≠ 0 ∧ opField w0 ≠ 4) := by
  constructor
  · intro hl
    by_contra hc
    push Not at hc
    obtain ⟨hop, h0, h1, ha, hd⟩ := hc
    exact hl ⟨h0, h1, hop, or_iff_not_imp_left.2 (fun h => or_iff_not_imp_left.2 (ha h)), or_iff_not_imp_left.2 hd⟩
  · rintro (h | h | h | ⟨ha, hop⟩ | ⟨hd, hop⟩) hl
    · exact h.elim hl.op.1 (Nat.not_le.2 hl.op.2)
    · exact h hl.rsv0
    · exact h hl.rsv1
    · exact hl.address.elim ha (fun h => h.elim hop.1 hop.2)
    · exact hl.data.elim hd hop

/-! ### What a command word decodes to -/

/-- What follows a command word whose operand is of the given kind (R72). -/
def operandsFor (k : OperandKind) (w1 : Word) (b : List Byte) : List HostItem :=
  match k with
  | .nothing => []
  | .word => [.word w1]
  | .bytes => [.bytes b]

/-- What `decodeWord` may answer: a command whose word and operand are those it was given, or a reason for a word that
is not legal. -/
def RightAnswer (w0 w1 : Word) (b : List Byte) : Except Illegal Instr → Prop
  | .ok i => i.commandWord = w0 ∧ i.operandItems = operandsFor (operandKind (opField w0)) w1 b
  | .error _ => ¬ LegalWord w0

section Answers

variable {w0 w1 : Word} {b : List Byte} {i : Instr} {op : BitVec 4} (h0 : rsv0Field w0 = 0) (h1 : rsv1Field w0 = 0)
  (hop : opField w0 = op) (hi : i.operandItems = operandsFor (operandKind op) w1 b)
include h0 h1 hop hi

/-- A command without a D field. -/
theorem withoutData_right (h4 : op ≠ 4) (hw : i.commandWord = packWord 0 (aField w0) op) :
    RightAnswer w0 w1 b (withoutData w0 i) := by
  subst hop
  unfold withoutData
  split
  next hd => exact ⟨by rw [hw, ← hd, packWord_of_fields w0 h0 h1], hi⟩
  next hd => exact fun hl => hl.data.elim hd h4

/-- A command without an A or a D field. -/
theorem withoutFields_right (h45 : op ≠ 4 ∧ op ≠ 5) (hw : i.commandWord = packWord 0 0 op) :
    RightAnswer w0 w1 b (withoutFields w0 i) := by
  unfold withoutFields
  split
  next ha => exact withoutData_right h0 h1 hop hi h45.1 (by rw [hw, ha])
  next ha =>
    subst hop
    exact fun hl => hl.address.elim ha (fun h => h.elim h45.1 h45.2)

/-- A command with both an A and a D field. -/
theorem withFields_right (hw : i.commandWord = packWord (dField w0) (aField w0) op) : RightAnswer w0 w1 b (.ok i) := by
  subst hop
  exact ⟨by rw [hw, packWord_of_fields w0 h0 h1], hi⟩

end Answers

/-- The one walk through `decodeWord` (R71, R73, R75). -/
theorem decodeWord_right (w0 w1 : Word) (b : List Byte) : RightAnswer w0 w1 b (decodeWord w0 w1 b) := by
  by_cases h0 : rsv0Field w0 = 0
  case neg =>
    rw [decodeWord, if_pos h0]
    exact fun hl => h0 hl.rsv0
  by_cases h1 : rsv1Field w0 = 0
  case neg =>
    rw [decodeWord, if_neg (not_not.2 h0), if_pos h1]
    exact fun hl => h1 hl.rsv1
  have hfield {n : Nat} (op : BitVec 4) (h : (opField w0).toNat = n) (hn : n = op.toNat) : opField w0 = op :=
    BitVec.eq_of_toNat_eq (h.trans hn)
  rw [decodeWord, if_neg (not_not.2 h0), if_neg (not_not.2 h1)]
  split
  next hop => exact withoutFields_right h0 h1 (hfield 1 hop rfl) rfl (by decide) rfl
  next hop => exact withoutFields_right h0 h1 (hfield 2 hop rfl) rfl (by decide) rfl
  next hop => exact withoutFields_right h0 h1 (hfield 3 hop rfl) rfl (by decide) rfl
  next hop => exact withFields_right h0 h1 (hfield 4 hop rfl) rfl rfl
  next hop => exact withoutData_right h0 h1 (hfield 5 hop rfl) rfl (by decide) rfl
  next hop => exact withoutFields_right h0 h1 (hfield 6 hop rfl) rfl (by decide) rfl
  next hop => exact withoutFields_right h0 h1 (hfield 7 hop rfl) rfl (by decide) rfl
  next hop => exact withoutFields_right h0 h1 (hfield 8 hop rfl) rfl (by decide) rfl
  next =>
    intro hl
    have hpos : (opField w0).toNat ≠ 0 := fun h => hl.op.1 (BitVec.eq_of_toNat_eq h)
    have hlt := hl.op.2
    interval_cases (opField w0).toNat <;> contradiction

/-- A command is read only from its own word and operand (R71, R73). -/
theorem decodeWord_ok {w0 w1 : Word} {b : List Byte} {i : Instr} (h : decodeWord w0 w1 b = .ok i) :
    i.commandWord = w0 ∧ i.operandItems = operandsFor (operandKind i.opcode) w1 b := by
  have hr := decodeWord_right w0 w1 b
  rw [h] at hr
  obtain ⟨rfl, hi⟩ := hr
  exact ⟨rfl, by rwa [opField_commandWord] at hi⟩

/-- A legal word decodes to a command, whatever its operand (R75, R76). -/
theorem decodeWord_legal_iff (w0 w1 : Word) (b : List Byte) : (∃ i, decodeWord w0 w1 b = .ok i) ↔ LegalWord w0 := by
  constructor
  · rintro ⟨i, h⟩
    rw [← (decodeWord_ok h).1]
    exact legalWord_commandWord i
  · intro hl
    have hr := decodeWord_right w0 w1 b
    cases h : decodeWord w0 w1 b with
    | ok i => exact ⟨i, rfl⟩
    | error why => exact absurd hl (by rwa [h] at hr)

/-- A word that decodes to no command is illegal for a reason of R75. -/
theorem decodeWord_illegal_iff (w0 w1 : Word) (b : List Byte) :
    (∃ why, decodeWord w0 w1 b = .error why) ↔ ¬ LegalWord w0 := by
  rw [← decodeWord_legal_iff w0 w1 b]
  cases decodeWord w0 w1 b <;> simp

/-- The word of a command with that command's operand decodes to it (R71, R73). -/
theorem decodeWord_commandWord {i : Instr} {w1 : Word} {b : List Byte}
    (h : i.operandItems = operandsFor (operandKind i.opcode) w1 b) : decodeWord i.commandWord w1 b = .ok i := by
  cases i <;> cases h <;> simp [decodeWord, withoutFields, withoutData, Instr.commandWord]

end Sys2Proof
end

