-- ==== Sys2Proof/Proofs/OpcodeTable.lean ====
section
/-! PROOFS. The opcode table of R77: its rows are the rows of the commands, and a row matches exactly the legal words
that carry its operation code (R76). -/

namespace Sys2Proof

/-- The bits of the command word that no field of the command takes, by its operation code (R77). -/
def opcodeMask (op : BitVec 4) : Word :=
  if op = 4 then 0xFF0000FF else if op = 5 then 0xFFFF00FF else 0xFFFFFFFF

/-- The row of a command: its word with the fields it has left 0 (R77). -/
def Instr.row (i : Instr) : OpcodeRow := ⟨i.mnemonic, packWord 0 0 i.opcode, opcodeMask i.opcode⟩

/-- The table of R77 is one row for each command of R71. -/
theorem opcodeRows_eq : opcodeRows =
    [Instr.select, .reset, .advance 0, .fmw 0 0 0, .fmr 0 0, .mix 0, .save, .load []].map Instr.row := by decide

/-- Every row of the table is the row of a command. -/
theorem row_of_mem {r : OpcodeRow} (h : r ∈ opcodeRows) : ∃ i, r = Instr.row i := by
  rw [opcodeRows_eq] at h
  obtain ⟨i, -, hi⟩ := List.mem_map.1 h
  exact ⟨i, hi.symm⟩

/-- Two words are the same when their five fields are (R70). -/
theorem word_eq_iff (v w : Word) :
    v = w ↔ rsv1Field v = rsv1Field w ∧ dField v = dField w ∧ aField v = aField w ∧ rsv0Field v = rsv0Field w ∧
      opField v = opField w := by
  constructor
  · rintro rfl
    exact ⟨rfl, rfl, rfl, rfl, rfl⟩
  · rintro ⟨h1, hd, ha, h0, hop⟩
    apply BitVec.eq_of_toNat_eq
    rw [word_of_fields v, word_of_fields w, h1, hd, ha, h0, hop]

/-- A mask clears the A field for FMW and FMR, the D field for FMW, and nothing else (R77). -/
theorem opcodeMask_fields (op : BitVec 4) :
    rsv1Field (opcodeMask op) = .allOnes 8 ∧ dField (opcodeMask op) = (if op = 4 then 0 else .allOnes 8) ∧
      aField (opcodeMask op) = (if op = 4 ∨ op = 5 then 0 else .allOnes 8) ∧
      rsv0Field (opcodeMask op) = .allOnes 4 ∧ opField (opcodeMask op) = .allOnes 4 := by
  decide +revert

/-- What a mask keeps of a field is 0 when the field is 0 or the mask clears it. -/
theorem and_mask_eq_zero_iff {n : Nat} (x : BitVec n) (c : Prop) [Decidable c] :
    x &&& (if c then 0 else .allOnes n) = 0 ↔ x = 0 ∨ c := by
  split <;> simp [*]

/-- A masked word is a row's pattern when the fields the mask keeps are (R76). -/
theorem and_opcodeMask_eq_iff (w0 : Word) (op : BitVec 4) :
    w0 &&& opcodeMask op = packWord 0 0 op ↔
      rsv1Field w0 = 0 ∧ (dField w0 = 0 ∨ op = 4) ∧ (aField w0 = 0 ∨ op = 4 ∨ op = 5) ∧ rsv0Field w0 = 0 ∧
        opField w0 = op := by
  obtain ⟨h1, hd, ha, h0, hop⟩ := opcodeMask_fields op
  have field_and (start len : Nat) : (w0 &&& opcodeMask op).extractLsb' start len =
      w0.extractLsb' start len &&& (opcodeMask op).extractLsb' start len := BitVec.extractLsb'_and ..
  rw [word_eq_iff, rsv1Field_packWord, dField_packWord, aField_packWord, rsv0Field_packWord, opField_packWord]
  unfold rsv1Field dField aField rsv0Field opField at *
  rw [field_and, field_and, field_and, field_and, field_and, h1, hd, ha, h0, hop, and_mask_eq_zero_iff,
    and_mask_eq_zero_iff, BitVec.and_allOnes, BitVec.and_allOnes, BitVec.and_allOnes]

/-- A row matches a word exactly when the word is legal and carries the row's operation code (R76). -/
theorem matchesWord_row (i : Instr) (w0 : Word) :
    i.row.matchesWord w0 = true ↔ LegalWord w0 ∧ opField w0 = i.opcode := by
  rw [OpcodeRow.matchesWord, decide_eq_true_iff, Instr.row, and_opcodeMask_eq_iff]
  constructor
  · rintro ⟨h1, hd, ha, h0, hop⟩
    have hi := (legalWord_commandWord i).op
    rw [opField_commandWord] at hi
    exact ⟨⟨h0, h1, hop ▸ hi, hop ▸ ha, hop ▸ hd⟩, hop⟩
  · rintro ⟨hl, hop⟩
    exact ⟨hl.rsv1, hop ▸ hl.data, hop ▸ hl.address, hl.rsv0, hop⟩

/-- The mnemonic and the operation code name the same command (R71). -/
theorem mnemonic_eq_iff (i j : Instr) : i.mnemonic = j.mnemonic ↔ i.opcode = j.opcode := by
  cases i <;> cases j <;> simp [Instr.mnemonic, Instr.opcode]

/-- The rows a command's own word matches are those of its mnemonic (R76). -/
theorem matchesWord_iff_mnemonic {i : Instr} {r : OpcodeRow} (hr : r ∈ opcodeRows) :
    r.matchesWord i.commandWord = true ↔ r.mnemonic = i.mnemonic := by
  obtain ⟨j, rfl⟩ := row_of_mem hr
  rw [matchesWord_row, opField_commandWord, ← mnemonic_eq_iff, eq_comm]
  exact and_iff_right (legalWord_commandWord i)

/-- The table has one row for each mnemonic (R77). -/
theorem rows_of_mnemonic (i : Instr) : (opcodeRows.filter (fun r => r.mnemonic = i.mnemonic)).length = 1 := by
  cases i <;> rfl

/-- Exactly one row matches the word of a command (R76). -/
theorem rows_of_commandWord (i : Instr) : (opcodeRows.filter (fun r => r.matchesWord i.commandWord)).length = 1 := by
  rw [← rows_of_mnemonic i, List.filter_congr]
  exact fun r hr => Bool.eq_iff_iff.2 (by rw [matchesWord_iff_mnemonic hr, decide_eq_true_iff])

/-- Settles O4: the one row is that of the command the word decodes to, and a word some row matches is legal. -/
theorem legalWordsMatchOneRow : Obligations.LegalWordsMatchOneRow := by
  intro w0 w1 b
  refine ⟨⟨?_, fun h => ?_⟩, fun i h r hr => ?_⟩
  · rintro ⟨i, h⟩
    rw [← (decodeWord_ok h).1]
    exact rows_of_commandWord i
  · obtain ⟨r, hr⟩ := List.length_pos_iff_exists_mem.1 (by rw [h]; exact Nat.one_pos)
    obtain ⟨hmem, hmatch⟩ := List.mem_filter.1 hr
    obtain ⟨i, rfl⟩ := row_of_mem hmem
    exact (decodeWord_legal_iff w0 w1 b).2 ((matchesWord_row i w0).1 hmatch).1
  · rw [← (decodeWord_ok h).1]
    exact matchesWord_iff_mnemonic hr

end Sys2Proof
end

