-- ==== Sys2Proof/Proofs/Encoding.lean ====
section
/-! PROOFS. What the host hands over for a command and the command decoded from it determine each other (R69 to R73),
and what a step does with either answer of the decoder (R36, R143). -/

namespace Sys2Proof

/-! ### The length rule (R72) -/

theorem operandKind_word_iff (op : BitVec 4) : operandKind op = .word ↔ op = 3 ∨ op = 4 ∨ op = 5 ∨ op = 6 := by
  decide +revert

theorem operandKind_bytes_iff (op : BitVec 4) : operandKind op = .bytes ↔ op = 8 := by decide +revert

theorem operandKind_nothing_iff (op : BitVec 4) :
    operandKind op = .nothing ↔ op = 0 ∨ op = 1 ∨ op = 2 ∨ op = 7 ∨ 9 ≤ op.toNat := by
  decide +revert

/-- A command word that takes no operand. -/
theorem decode_of_nothing {w0 : Word} (h : operandKind (opField w0) = .nothing) (rest : List HostItem) :
    decode (.word w0 :: rest) = decodedAs (decodeWord w0 0 []) rest := by
  simp only [decode, decodeCommand, h]

/-- A command word that takes the operand word after it. -/
theorem decode_of_word {w0 : Word} (h : operandKind (opField w0) = .word) (w1 : Word) (rest : List HostItem) :
    decode (.word w0 :: .word w1 :: rest) = decodedAs (decodeWord w0 w1 []) rest := by
  simp only [decode, decodeCommand, h]

/-- A command word that takes the byte string after it. -/
theorem decode_of_bytes {w0 : Word} (h : operandKind (opField w0) = .bytes) (b : List Byte) (rest : List HostItem) :
    decode (.word w0 :: .bytes b :: rest) = decodedAs (decodeWord w0 0 b) rest := by
  simp only [decode, decodeCommand, h]

/-- Settles O6: the operation codes of each kind. -/
theorem operandsTakenByOperationCode : Obligations.OperandsTakenByOperationCode :=
  fun _ w1 b rest =>
    ⟨fun h => decode_of_word ((operandKind_word_iff _).2 h) w1 rest,
      fun h => decode_of_bytes ((operandKind_bytes_iff _).2 h) b rest,
      fun h => decode_of_nothing ((operandKind_nothing_iff _).2 h) rest⟩

/-! ### Decoding an encoding -/

/-- Every command is handed over with an operand of the kind its operation code asks for (R69, R72). -/
theorem exists_operands (i : Instr) : ∃ w1 b, i.operandItems = operandsFor (operandKind i.opcode) w1 b := by
  cases i with
  | select => exact ⟨0, [], rfl⟩
  | reset => exact ⟨0, [], rfl⟩
  | advance cyc => exact ⟨cyc, [], rfl⟩
  | fmw cyc a d => exact ⟨cyc, [], rfl⟩
  | fmr cyc a => exact ⟨cyc, [], rfl⟩
  | mix cyc => exact ⟨cyc, [], rfl⟩
  | save => exact ⟨0, [], rfl⟩
  | load b => exact ⟨0, b, rfl⟩

/-- Settles O2, by the kind of the operand: the length rule takes what the encoder put after the word, and the word with
it decodes to the command. -/
theorem decodeReadsBackEncode : Obligations.DecodeReadsBackEncode := by
  intro i rest
  have hop := opField_commandWord i
  have hok {w1 : Word} {b : List Byte} (h : i.operandItems = operandsFor (operandKind i.opcode) w1 b) :
      decodedAs (decodeWord i.commandWord w1 b) rest = .command i rest := by
    rw [decodeWord_commandWord h]
    rfl
  obtain ⟨w1, b, hi⟩ := exists_operands i
  rw [encode, hi]
  cases hk : operandKind i.opcode with
  | nothing => exact (decode_of_nothing (by rw [hop, hk]) rest).trans (hok (by rw [hi, hk]; rfl))
  | word => exact (decode_of_word (by rw [hop, hk]) w1 rest).trans (hok (by rw [hi, hk]; rfl))
  | bytes => exact (decode_of_bytes (by rw [hop, hk]) b rest).trans (hok (by rw [hi, hk]; rfl))

/-! ### Encoding what was decoded -/

/-- Only a word that decodes to a command is named one. -/
theorem decodedAs_command {d : Except Illegal Instr} {i : Instr} {rest more : List HostItem}
    (h : decodedAs d more = .command i rest) : d = .ok i ∧ more = rest := by
  cases d with
  | ok j =>
    cases h
    exact ⟨rfl, rfl⟩
  | error why => cases h

/-- Whatever decodes to a command is a command word with the operand its operation code asks for (R69, R72). -/
theorem decode_command {items : List HostItem} {i : Instr} {rest : List HostItem}
    (h : decode items = .command i rest) :
    ∃ w0 w1 b, items = .word w0 :: operandsFor (operandKind (opField w0)) w1 b ++ rest ∧
      decodeWord w0 w1 b = .ok i := by
  unfold decode at h
  split at h
  case h_4 w0 more =>
    unfold decodeCommand at h
    split at h
    next hk =>
      obtain ⟨hw, rfl⟩ := decodedAs_command h
      exact ⟨w0, 0, [], by rw [hk]; rfl, hw⟩
    next w1 more hk =>
      obtain ⟨hw, rfl⟩ := decodedAs_command h
      exact ⟨w0, w1, [], by rw [hk]; rfl, hw⟩
    next => cases h
    next b more hk =>
      obtain ⟨hw, rfl⟩ := decodedAs_command h
      exact ⟨w0, 0, b, by rw [hk]; rfl, hw⟩
    next => cases h
  all_goals cases h

/-- Settles O3: the word and the operand are the command's own. -/
theorem encodeWritesBackDecode : Obligations.EncodeWritesBackDecode := by
  intro items i rest h
  obtain ⟨w0, w1, b, rfl, hw⟩ := decode_command h
  obtain ⟨rfl, hi⟩ := decodeWord_ok hw
  rw [encode, hi, opField_commandWord]

/-- Settles O7: the operand items are those handed over, and the fields of the word are those it was packed from. -/
theorem operandsAreZeroExtended : Obligations.OperandsAreZeroExtended := by
  intro w0 w1 b i h
  obtain ⟨rfl, hi⟩ := decodeWord_ok h
  cases i with
  | select => trivial
  | reset => trivial
  | advance cyc =>
    cases hi
    rfl
  | fmw cyc a d =>
    cases hi
    refine ⟨rfl, ?_, ?_⟩
    · rw [← field_toNat, ← aField, Instr.commandWord, aField_packWord]
    · rw [← field_toNat, ← dField, Instr.commandWord, dField_packWord]
  | fmr cyc a =>
    cases hi
    refine ⟨rfl, ?_⟩
    rw [← field_toNat, ← aField, Instr.commandWord, aField_packWord]
  | mix cyc =>
    cases hi
    rfl
  | save => trivial
  | load b' =>
    cases hi
    rfl

/-- A row of the table of R80: what encodes a command decodes to it. -/
theorem sample_row {i : Instr} {items : List HostItem} (h : encode i = items) :
    encode i = items ∧ decode items = .command i [] := by
  have hd := decodeReadsBackEncode i []
  rw [List.append_nil, h] at hd
  exact ⟨h, hd⟩

/-- Settles O1: each row encodes as tabulated; A set on MIX takes the operand word and is illegal. -/
theorem sampleCommandsAsTabulated : Obligations.SampleCommandsAsTabulated :=
  ⟨sample_row rfl, sample_row rfl, sample_row rfl, sample_row rfl, sample_row rfl, sample_row rfl, sample_row rfl,
    sample_row rfl, fun _ => sample_row rfl, fun w1 => decode_of_word (w0 := 0x00000106) rfl w1 []⟩

/-! ### Steps -/

namespace Machine

/-- Settles O10: the arm of `step` for a command. -/
theorem stepRunsTheDecodedCommand : Obligations.StepRunsTheDecodedCommand := by
  intro s i rest h
  rw [step, h]

/-- A step that meets an illegal word takes it and its operand (R143). -/
theorem step_of_illegal {s : State} {why : Illegal} {rest : List HostItem} (h : decode s.inbox = .illegal why rest) :
    step s = illegalCommand { s with inbox := rest } := by
  rw [step, h]

/-- Settles O5: a word is illegal when it is not legal, and the step that meets it raises the fault at once. -/
theorem illegalWordsRaiseCmdIllegal : Obligations.IllegalWordsRaiseCmdIllegal :=
  ⟨fun w0 w1 b => (decodeWord_illegal_iff w0 w1 b).trans (not_legalWord_iff w0),
    fun _ _ _ hs h => (step_of_illegal h).trans (illegalCommand_of_ok hs)⟩

end Machine

end Sys2Proof
end

