-- ==== Sys2Proof/Proofs/Assembling.lean ====
section
/-! PROOFS. The assembler's operand ranges (R78) and the pseudo-commands (R79). -/

namespace Sys2Proof.Machine

/-- The operand with a given value in range is that value at the operand's width. -/
theorem exists_operand_iff {w n : Nat} (h : n < 2 ^ w) (P : BitVec w → Prop) :
    (∃ v : BitVec w, v.toNat = n ∧ P v) ↔ P (BitVec.ofNat w n) := by
  constructor
  · rintro ⟨v, rfl, hv⟩
    rwa [BitVec.ofNat_toNat, BitVec.setWidth_eq]
  · exact fun hv => ⟨_, by rw [BitVec.toNat_ofNat, Nat.mod_eq_of_lt h], hv⟩

section Lines

variable (blobs : List (List Char × List Byte)) (cyc a d : Nat) (is : List Instr)

theorem assemble_advance :
    assemble blobs (.advance cyc) = some is ↔ cyc < 2 ^ 32 ∧ is = [.advance (BitVec.ofNat 32 cyc)] := by
  simp only [assemble, Asm.wellFormed, cycInRange, decide_eq_true_eq, Option.ite_none_right_eq_some, Option.some.injEq,
    eq_comm (a := is)]

theorem assemble_fmw : assemble blobs (.fmw cyc a d) = some is ↔ cyc < 2 ^ 32 ∧ a < 2 ^ 8 ∧ d < 2 ^ 8 ∧
    is = [.fmw (BitVec.ofNat 32 cyc) (BitVec.ofNat 8 a) (BitVec.ofNat 8 d)] := by
  simp only [assemble, Asm.wellFormed, cycInRange, byteInRange, Bool.and_eq_true, decide_eq_true_eq,
    Option.ite_none_right_eq_some, Option.some.injEq, and_assoc, eq_comm (a := is)]

theorem assemble_fmr : assemble blobs (.fmr cyc a) = some is ↔ cyc < 2 ^ 32 ∧ a < 2 ^ 8 ∧
    is = [.fmr (BitVec.ofNat 32 cyc) (BitVec.ofNat 8 a)] := by
  simp only [assemble, Asm.wellFormed, cycInRange, byteInRange, Bool.and_eq_true, decide_eq_true_eq,
    Option.ite_none_right_eq_some, Option.some.injEq, and_assoc, eq_comm (a := is)]

theorem assemble_mix :
    assemble blobs (.mix cyc) = some is ↔ cyc < 2 ^ 32 ∧ is = [.mix (BitVec.ofNat 32 cyc)] := by
  simp only [assemble, Asm.wellFormed, cycInRange, decide_eq_true_eq, Option.ite_none_right_eq_some, Option.some.injEq,
    eq_comm (a := is)]

theorem assemble_load (name : List Char) :
    assemble blobs (.load name) = some is ↔ ∃ b, blobs.lookup name = some b ∧ is = [.load b] := by
  simp only [assemble, Asm.wellFormed, if_true, Option.map_eq_some_iff, eq_comm (a := is)]

end Lines

/-- Settles O8: each line assembles to its operands at their widths, which are the operands with those values. -/
theorem assemblerKeepsOrRefusesOperands : Obligations.AssemblerKeepsOrRefusesOperands := by
  intro blobs cyc a d name is
  refine ⟨?_, ?_, ?_, ?_, assemble_load blobs is name, rfl, rfl, rfl⟩
  · rw [assemble_advance]
    exact and_congr_right fun hc => (exists_operand_iff hc (fun c => is = [.advance c])).symm
  · rw [assemble_fmw]
    refine and_congr_right fun hc => and_congr_right fun ha => and_congr_right fun hd => ?_
    simp only [exists_and_left, exists_operand_iff hc, exists_operand_iff ha, exists_operand_iff hd]
  · rw [assemble_fmr]
    refine and_congr_right fun hc => and_congr_right fun ha => ?_
    simp only [exists_and_left, exists_operand_iff hc, exists_operand_iff ha]
  · rw [assemble_mix]
    exact and_congr_right fun hc => (exists_operand_iff hc (fun c => is = [.mix c])).symm

/-- Settles O9: a pseudo-command is its expansion's line by definition. -/
theorem pseudoCommandsExpand : Obligations.PseudoCommandsExpand := fun _ _ => ⟨rfl, rfl, rfl⟩

end Sys2Proof.Machine
end

