-- ==== Sys2Proof/Proofs/Session.lean ====
section
/-! PROOFS. The session commands SELECT and RESET (40_session.md): the table they choose from, when each of them faults,
what each comes to, and what between them no other command can do. -/

namespace Sys2Proof

/-! ### The words of SELECT -/

theorem eq_select_of_opcode {i : Instr} (h : i.opcode = 1) : i = .select := by
  cases i with
  | select => rfl
  | reset | advance | fmw | fmr | mix | save | load => simp [Instr.opcode] at h

/-- A word with SELECT's operation code takes no operand, and only SELECT could be read from it: any word but SELECT's
own is illegal (R75, R89). -/
theorem decode_of_opcode_select {w0 : Word} (hop : opField w0 = 1) (hne : w0 ≠ Instr.select.commandWord)
    (rest : List HostItem) : ∃ why, decode (.word w0 :: rest) = .illegal why rest := by
  have hk : operandKind (opField w0) = .nothing := (operandKind_nothing_iff _).2 (.inr (.inl hop))
  rw [decode_of_nothing hk]
  cases hd : decodeWord w0 0 [] with
  | error why => exact ⟨why, rfl⟩
  | ok i =>
    obtain ⟨rfl, -⟩ := decodeWord_ok hd
    rw [opField_commandWord] at hop
    exact absurd (congrArg Instr.commandWord (eq_select_of_opcode hop)) hne

namespace Machine

/-! ### The table (R88) -/

/-- Settles O15: the hardware class decides, and on HW_A the build and the preference. -/
theorem variantAndRatioTable : Obligations.VariantAndRatioTable := by
  intro p
  refine ⟨fun h => ?_, fun h pref => ?_, fun _ => ⟨rfl, rfl⟩, rfl, rfl, rfl⟩
  · simp [variantOf, h]
  · simp [variantOf, h]

/-! ### When SELECT and RESET fault (R144, R145) -/

theorem selectCheck_selected {s : State} (h : s.phase = .selected) : selectCheck s = some .reselect := if_pos h

theorem selectCheck_pending {s : State} (h : s.phase = .running) (hb : s.blen ≠ 0) :
    selectCheck s = some .reselect := by
  simp [selectCheck, h, hb]

theorem selectCheck_ready {s : State} (h : s.phase = .off ∨ (s.phase = .running ∧ s.blen = 0)) :
    selectCheck s = none := by
  rcases h with h | ⟨h, hb⟩
  · simp [selectCheck, h]
  · simp [selectCheck, h, hb]

theorem resetCheck_off {s : State} (h : s.phase = .off) : resetCheck s = some .notReady := if_pos h

theorem resetCheck_bound {s : State} (h : s.phase ≠ .off) : resetCheck s = none := if_neg h

/-! ### Between SELECT and RESET -/

/-- The checks of every command but the session commands ask for PHASE RUNNING (R144). -/
theorem running_of_checkOf_none {i : Instr} {s : State} (hc : checkOf i s = none) (hsel : i ≠ .select)
    (hres : i ≠ .reset) : s.phase = .running := by
  cases i with
  | select => exact absurd rfl hsel
  | reset => exact absurd rfl hres
  | advance cyc => exact (accessCheck_none.1 hc).1
  | fmw cyc a d => exact (accessCheck_none.1 hc).1
  | fmr cyc a => exact (readCheck_none.1 hc).1
  | mix f => exact (mixCheck_none.1 hc).1
  | save => exact (saveCheck_none.1 hc).1
  | load b => exact (loadCheck_none.1 hc).1

/-- In PHASE SELECTED only RESET passes its check (R90). -/
theorem eq_reset_of_checkOf_none {i : Instr} {s : State} (hp : s.phase = .selected) (hc : checkOf i s = none) :
    i = .reset := by
  by_contra hres
  have hsel : i ≠ .select := by
    rintro rfl
    exact (selectCheck_none hc).1 hp
  have hrun := running_of_checkOf_none hc hsel hres
  simp [hp] at hrun

/-! ### SELECT and RESET -/

/-- RESET on a block that has an engine bound (R91). -/
theorem exec_reset_bound {s : State} (hs : s.fault = false) (h : s.phase ≠ .off) :
    exec .reset s = .next (resetScheduler s) :=
  exec_ok hs (resetCheck_bound h) rfl

/-- Settles O16: SELECT's check in each phase, and its execution where the check passes. -/
theorem selectChoosesTheBackend : Obligations.SelectChoosesTheBackend := by
  refine ⟨rfl, fun w0 rest hop hne => decode_of_opcode_select hop hne rest, fun s hs => ⟨?_, ?_, ?_, ?_⟩⟩
  · intro hp i hi
    cases hc : checkOf i s with
    | none => exact absurd (eq_reset_of_checkOf_none hp hc) hi
    | some c => exact ⟨_, exec_checked hs hc, rfl⟩
  · exact fun hp => exec_checked hs (selectCheck_selected hp)
  · exact fun hp hb => exec_checked hs (selectCheck_pending hp hb)
  · rintro h _ rfl
    exact exec_ok hs (selectCheck_ready h) rfl

/-- Settles O17: RESET's check fails in PHASE OFF alone. -/
theorem resetClearsTheScheduler : Obligations.ResetClearsTheScheduler :=
  ⟨rfl, fun _ hs => ⟨fun h => exec_checked hs (resetCheck_off h), exec_reset_bound hs⟩⟩

/-- Settles O18: RESET passes on either block and overwrites everything in which they differ but the buffer. -/
theorem resetForgetsThePendingFrame : Obligations.ResetForgetsThePendingFrame := by
  intro s pt fs last cl cr blen buf hs hp
  rw [exec_reset_bound hs hp]
  exact exec_reset_bound (s := { s with pt, fs, last, cl, cr, blen, buf }) hs hp

/-! ### One ratio between two SELECTs -/

/-- A command that leaves the block without a fault found it without one: the fault flag is sticky (R157). -/
theorem fault_false_of_exec {i : Instr} {s t : State} (he : exec i s = .next t) (ht : t.fault = false) :
    s.fault = false := by
  cases hs : s.fault
  · rfl
  · cases next_inj.1 ((exec_of_faulted hs).symm.trans he)
    exact hs.symm.trans ht

/-- No completed command but SELECT writes the variant or the ratio (R50, R90). -/
theorem var_ratio_of_completed {i : Instr} {s t : State} (hi : i ≠ .select) (he : exec i s = .next t)
    (hs : s.fault = false) (ht : t.fault = false) : t.var = s.var ∧ t.ratio = s.ratio := by
  obtain ⟨-, -, -, -, hw⟩ := commandsWriteOnlyTheirRegisters i s t he hs ht
  cases i with
  | select => exact absurd rfl hi
  | reset | advance | fmw | fmr | mix | save | load =>
    obtain ⟨hv, hr, -⟩ := hw
    exact ⟨hv, hr⟩

/-- Settles O19: the table of access rights keeps variant and ratio, and in PHASE SELECTED only RESET completes. -/
theorem ratioIsFixedForTheSession : Obligations.RatioIsFixedForTheSession := by
  intro i s t hi he ht
  have hs := fault_false_of_exec he ht
  obtain ⟨hv, hr⟩ := var_ratio_of_completed hi he hs ht
  refine ⟨hv, hr, fun hp => ?_⟩
  obtain ⟨hc, hb⟩ := completed_of_exec hs he ht
  obtain rfl := eq_reset_of_checkOf_none hp hc
  cases hb
  exact ⟨rfl, rfl⟩

end Machine

end Sys2Proof
end

