-- ==== Sys2Proof/Proofs/Scheduler.lean ====
section
/-! PROOFS. The Clock Scheduler (41_scheduler.md): what ADVANCE, FMW and FMR come to when the samples owed have room,
how far an advance produces, and the count of the pairs of a frame. -/

namespace Sys2Proof.Machine

/-! ### Accesses with room -/

/-- A write in order, with room, is ADVANCE's state with the call after it (R100). -/
theorem exec_fmw_of_room {cyc : Word} {a d : Byte} {s : State} (hl : s.Live) (hle : s.last.toNat ≤ cyc.toNat)
    (hr : Room cyc s) :
    exec (.fmw cyc a d) s = .next (record (.fmWrite a d) (advanced cyc (noteStamp cyc s))) :=
  exec_ok hl.1 (accessCheck_none.2 ⟨hl.2, hle⟩) (writeBody_of_room hr)

/-- A read in order on a variant that supports it, with room, is ADVANCE's state with the call after it and the answer
handed back (R101). -/
theorem exec_fmr_of_room {cyc : Word} {a : Byte} {s : State} (hl : s.Live) (hv : s.var ≠ .simplified)
    (hle : s.last.toNat ≤ cyc.toNat) (hr : Room cyc s) :
    exec (.fmr cyc a) s = .next (giveBack (.value (readAnswer a (advanced cyc (noteStamp cyc s))))
      (callRead a (advanced cyc (noteStamp cyc s)))) :=
  exec_ok hl.1 (readCheck_none.2 ⟨hl.2, hv, hle⟩) (readBody_of_room hr)

/-- Presenting a timestamp leaves a live block live. -/
theorem advanced_noteStamp_live {cyc : Word} {s : State} (hl : s.Live) : (advanced cyc (noteStamp cyc s)).Live := by
  simpa [State.Live] using hl

/-- Settles O20: a covered timestamp is noted and no more; above PT the advance is the generate of the owed pairs. -/
theorem advanceGeneratesTheOwedSamples : Obligations.AdvanceGeneratesTheOwedSamples := by
  intro cyc s hl hle
  constructor
  · intro hcov
    rw [exec_advance_of_room hl hle fun hlt => absurd hlt (Nat.not_lt.2 hcov),
      advanced_covered (s := noteStamp cyc s) hcov]
    rfl
  · rintro hlt _ rfl hbuf hcount
    rw [exec_advance_of_room hl hle fun _ => ⟨hbuf, hcount⟩, advanced_generates (s := noteStamp cyc s) hlt]
    rfl

/-- Settles O21: both commands pass the same check and begin with the same advance. -/
theorem fmwAdvancesThenWrites : Obligations.FmwAdvancesThenWrites := fun _ _ _ _ hl hle hr =>
  ⟨_, exec_advance_of_room hl hle hr, (advanced_noteStamp_live hl).1, exec_fmw_of_room hl hle hr⟩

/-- Settles O22: FMR's check is ADVANCE's where the variant supports reads, and it begins with the same advance. -/
theorem fmrAdvancesThenReads : Obligations.FmrAdvancesThenReads := fun _ _ _ hl hv hle hr =>
  ⟨_, _, exec_advance_of_room hl hle hr, (advanced_noteStamp_live hl).1, rfl, exec_fmr_of_room hl hv hle hr⟩

/-! ### How far an advance produces -/

/-- The ratios that cover a stretch overshoot it by less than one (R13). -/
theorem ceildiv_mul_lt {b : Nat} (hb : 0 < b) (a : Nat) : ceildiv a b * b < a + b := by
  have h : ceildiv a b * b ≤ a + b - 1 := Nat.div_mul_le_self _ _
  omega

/-- Settles O25: the owed pairs cover what was missing up to t (R13's least cover), and overshoot it by less than one
ratio. -/
theorem noOverProduction : Obligations.NoOverProduction := by
  intro t s s' h
  obtain ⟨hr, rfl⟩ := room_of_advance h
  have hcover : t.toNat - s.pt.toNat ≤ owed t s * cycles s.ratio :=
    (ceildiv_le_iff (cycles_pos _) _ _).1 (Nat.le_refl _)
  have hover : owed t s * cycles s.ratio < t.toNat - s.pt.toNat + cycles s.ratio := ceildiv_mul_lt (cycles_pos _) _
  rw [advanced_pt_toNat hr]
  omega

/-! ### One access within a frame -/

/-- Within a frame, or at its boundary: the block is live, the produced span is that of the pairs in the buffer (R47),
and these are the pairs that the presented span needs (R48). -/
structure InFrame (s : State) : Prop where
  live : s.Live
  spans : Spans s
  needed : Needed s

/-- The pairs that the cycles from the frame's start to c need fit the buffer and the counter. -/
def Fits (c : Word) (s : State) : Prop :=
  ceildiv (c.toNat - s.fs.toNat) (cycles s.ratio) ≤ s.params.bufCap ∧
    s.fs.toNat + ceildiv (c.toNat - s.fs.toNat) (cycles s.ratio) * cycles s.ratio ≤ u32Max

/-- What fits up to c fits up to any timestamp below it. -/
theorem Fits.mono {c c' : Word} {s : State} (h : Fits c' s) (hle : c.toNat ≤ c'.toNat) : Fits c s := by
  obtain ⟨hbuf, hcount⟩ := h
  have hn : ceildiv (c.toNat - s.fs.toNat) (cycles s.ratio) ≤ ceildiv (c'.toNat - s.fs.toNat) (cycles s.ratio) :=
    ceildiv_mono (by omega)
  exact ⟨hn.trans hbuf, (Nat.add_le_add_left (Nat.mul_le_mul_right _ hn) _).trans hcount⟩

/-- Noting a timestamp makes no difference to what an advance owes. -/
@[simp] theorem owed_noteStamp (cyc t : Word) (s : State) : owed t (noteStamp cyc s) = owed t s := rfl

/-- Pending pairs and owed pairs together are what the presented span needs (R98, R48). -/
theorem blen_add_owed {cyc : Word} {s : State} (h : InFrame s) (hle : s.last.toNat ≤ cyc.toNat) :
    s.blen + owed cyc s = ceildiv (cyc.toNat - s.fs.toNat) (cycles s.ratio) := by
  have hn := needed_present h.spans h.needed hle
  rw [Needed, advanced_blen] at hn
  simpa using hn

/-- A timestamp up to which the frame fits has room. -/
theorem room_of_fits {cyc : Word} {s : State} (h : InFrame s) (hle : s.last.toNat ≤ cyc.toNat) (hf : Fits cyc s) :
    Room cyc s := by
  obtain ⟨hbuf, hcount⟩ := hf
  rw [← blen_add_owed h hle] at hbuf hcount
  refine fun _ => ⟨hbuf, ?_⟩
  rwa [h.spans, Nat.add_assoc, ← Nat.add_mul]

/-- From s to t the same frame has gone on: its start, ratio, build and variant are kept, and as many pairs were
generated as the buffer has gained. -/
structure SameFrame (s t : State) : Prop where
  fs : t.fs = s.fs
  ratio : t.ratio = s.ratio
  params : t.params = s.params
  var : t.var = s.var
  counted : generatedPairs t.trace + s.blen = generatedPairs s.trace + t.blen

theorem SameFrame.refl (s : State) : SameFrame s s := ⟨rfl, rfl, rfl, rfl, rfl⟩

theorem SameFrame.trans {s t u : State} (h : SameFrame s t) (h' : SameFrame t u) : SameFrame s u where
  fs := h'.fs.trans h.fs
  ratio := h'.ratio.trans h.ratio
  params := h'.params.trans h.params
  var := h'.var.trans h.var
  counted := by
    have h1 := h.counted
    have h2 := h'.counted
    omega

theorem SameFrame.fits {c : Word} {s t : State} (h : SameFrame s t) (hf : Fits c s) : Fits c t := by
  unfold Fits
  rwa [h.fs, h.ratio, h.params]

/-- The pairs of the call an advance makes are the pairs it owes (R98). -/
theorem generatedPairs_generateCall (t : Word) (s : State) : generatedPairs (generateCall t s) = owed t s := by
  rcases Nat.lt_or_ge s.pt.toNat t.toNat with h | h
  · simp [generateCall, h, generatedPairs]
  · simp [generateCall, Nat.not_lt.2 h, owed_covered h, generatedPairs]

/-- ADVANCE, FMW and FMR in order and with room complete in one state but for what comes after the advance: calls that
generate nothing, and the answer used up and handed back. -/
theorem exec_access_of_room {i : Instr} {cyc : Word} {s : State} (hi : stampOf i = some cyc) (hl : s.Live)
    (hread : s.var ≠ .simplified ∨ ∀ x a, i ≠ .fmr x a) (hle : s.last.toNat ≤ cyc.toNat) (hr : Room cyc s) :
    ∃ answers draws es results, generatedPairs es = 0 ∧
      exec i s = .next { advanced cyc (noteStamp cyc s) with
        answers, draws, results, trace := (advanced cyc (noteStamp cyc s)).trace ++ es } := by
  cases i with
  | select | reset | mix | save | load => cases hi
  | advance =>
    cases hi
    refine ⟨(advanced cyc (noteStamp cyc s)).answers, (advanced cyc (noteStamp cyc s)).draws, [],
      (advanced cyc (noteStamp cyc s)).results, rfl, ?_⟩
    rw [List.append_nil]
    exact exec_advance_of_room hl hle hr
  | fmw =>
    cases hi
    exact ⟨_, _, [_], _, rfl, exec_fmw_of_room hl hle hr⟩
  | fmr _ a =>
    cases hi
    have hv := hread.resolve_right fun h => h _ a rfl
    exact ⟨_, _, [_], _, rfl, exec_fmr_of_room hl hv hle hr⟩

/-- An access whose timestamp is in order and fits completes within the same frame (R99 to R101). -/
theorem inFrame_access {i : Instr} {cyc : Word} {s : State} (h : InFrame s) (hi : stampOf i = some cyc)
    (hread : s.var ≠ .simplified ∨ ∀ x a, i ≠ .fmr x a) (hle : s.last.toNat ≤ cyc.toNat) (hf : Fits cyc s) :
    ∃ t, exec i s = .next t ∧ InFrame t ∧ SameFrame s t ∧ t.last = cyc := by
  have hr := room_of_fits h hle hf
  obtain ⟨answers, draws, es, results, hes, he⟩ := exec_access_of_room hi h.live hread hle hr
  have hcounted : generatedPairs ((advanced cyc (noteStamp cyc s)).trace ++ es) + s.blen =
      generatedPairs s.trace + (advanced cyc (noteStamp cyc s)).blen := by
    simp only [advanced_trace, advanced_blen, generatedPairs_append, generatedPairs_generateCall, hes,
      noteStamp_trace, noteStamp_blen]
    omega
  exact ⟨_, he,
    ⟨advanced_noteStamp_live h.live, spans_advanced (s := noteStamp cyc s) hr h.spans,
      needed_present h.spans h.needed hle⟩,
    ⟨advanced_fs _ _, advanced_ratio _ _, advanced_params _ _, advanced_var _ _, hcounted⟩, advanced_last _ _⟩

/-! ### The accesses of a frame -/

/-- Accesses in order that fit complete one after the other within the same frame, and the last timestamp stands in
S.LAST (R102). -/
theorem runCommands_accesses {is : List Instr} {cs : List Word} {s : State} (h : InFrame s)
    (hi : is.map stampOf = cs.map some) (hread : ∀ i ∈ is, s.var ≠ .simplified ∨ ∀ x a, i ≠ .fmr x a)
    (hsorted : (s.last :: cs).Pairwise (fun x y => x.toNat ≤ y.toNat)) (hfits : ∀ x ∈ cs, Fits x s) :
    ∃ t, runCommands is s = .next t ∧ InFrame t ∧ SameFrame s t ∧ t.last = cs.getLastD s.last := by
  induction cs generalizing is s with
  | nil =>
    cases List.map_eq_nil_iff.1 hi
    exact ⟨s, rfl, h, .refl s, rfl⟩
  | cons c cs ih =>
    obtain ⟨i, is, rfl, hc, hcs⟩ := List.map_eq_cons_iff.1 hi
    obtain ⟨hle, hrest⟩ := List.pairwise_cons.1 hsorted
    obtain ⟨hri, hris⟩ := List.forall_mem_cons.1 hread
    obtain ⟨hfc, hfcs⟩ := List.forall_mem_cons.1 hfits
    obtain ⟨u, hu, hin, hsame, rfl⟩ := inFrame_access h hc hri (hle c List.mem_cons_self) hfc
    obtain ⟨t, ht, hin', hsame', hlast⟩ := ih hin hcs (by rwa [hsame.var]) hrest fun x hx => hsame.fits (hfcs x hx)
    exact ⟨t, by rwa [runCommands, hu], hin', hsame.trans hsame', by rw [hlast, List.getLastD_cons]⟩

/-- A frame boundary at which no timestamp has been presented is the start of a frame. -/
theorem inFrame_of_boundary {s : State} (hl : s.Live) (hb : s.blen = 0) (hp : s.pt = s.fs) (hlast : s.last = 0) :
    InFrame s where
  live := hl
  spans := by simp [Spans, hb, hp]
  needed := by simp [Needed, hb, hlast, cycles_pos]

/-- Settles O26: the accesses stay within the frame (`runCommands_accesses`), in which the presented span fixes the
number of pairs in the buffer and with it PT. -/
theorem sampleCountIsExact : Obligations.SampleCountIsExact := by
  rintro is cs c s n hl hb hp hlast hi hread hsorted hc rfl hbuf hcount
  obtain ⟨hne, hend⟩ := List.mem_getLast?_eq_getLast hc
  have hfits (x : Word) (hx : x ∈ cs) : Fits x s :=
    Fits.mono ⟨hbuf, hcount⟩ (hend ▸ hsorted.rel_getLast_of_rel_getLast_getLast hx (Nat.le_refl _))
  obtain ⟨t, ht, ⟨htl, hspans, hneeded⟩, hsame, hlast'⟩ :=
    runCommands_accesses (inFrame_of_boundary hl hb hp hlast) hi hread
      (List.pairwise_cons.2 ⟨by simp [hlast], hsorted⟩) hfits
  have htc : t.last = c := by rw [hlast', List.getLastD_eq_getLast?, hc, Option.getD_some]
  have hblen : t.blen = ceildiv (c.toNat - s.fs.toNat) (cycles s.ratio) := by
    rw [hneeded, htc, hsame.fs, hsame.ratio]
  refine ⟨t, ht, htl, ?_, hblen, ?_, htc⟩
  · rw [← hblen, ← hsame.counted, hb, Nat.add_zero]
  · rw [hspans, hsame.fs, hsame.ratio, hblen]

end Sys2Proof.Machine
end

