-- ==== Sys2Proof/Proofs/Amplification.lean ====
section
/-! PROOFS. Amplification and the delta against the sample before it as exact integers (R112, R113), and the bound of an
amplified value that keeps every delta in s32 (R124). -/

namespace Sys2Proof.Machine

/-- An amplified value is the hundredth, truncated toward zero, of a product that lies in s32 (R112). -/
theorem amp_some {x pre v : S32} (h : amp x pre = some v) :
    inS32 (x.toInt * pre.toInt) = true ∧ v.toInt = tdiv (x.toInt * pre.toInt) 100 := by
  cases hp : inS32 (x.toInt * pre.toInt) with
  | false => simp [amp_of_not_fits hp] at h
  | true =>
    obtain ⟨h1, h2⟩ := tdiv_hundred_bound hp
    cases (amp_of_fits hp).symm.trans h
    exact ⟨rfl, toInt_ofInt_of_inS32 ((inS32_iff _).2 (by omega))⟩

/-- Every amplified value lies within a hundredth of s32 (R124). -/
theorem amp_bounded {x pre v : S32} (h : amp x pre = some v) : |v.toInt| ≤ 21474836 := by
  obtain ⟨hp, hv⟩ := amp_some h
  rw [hv]
  exact abs_le.2 (tdiv_hundred_bound hp)

/-- The delta between two amplified values, 0 among them, is their exact difference (R113, R124). -/
theorem delta_of_bounded {x prev : S32} (hx : |x.toInt| ≤ 21474836) (hp : |prev.toInt| ≤ 21474836) :
    ∃ d, delta x prev = some d ∧ d.toInt = x.toInt - prev.toInt := by
  have hd : inS32 (x.toInt - prev.toInt) = true := by
    rw [abs_le] at hx hp
    exact (inS32_iff _).2 (by omega)
  exact ⟨_, if_pos hd, toInt_ofInt_of_inS32 hd⟩

/-- Settles O29: the s32 check decides between the two cases, and `tdiv` is sign times magnitude by definition. -/
theorem amplificationTruncatesTheExactProduct : Obligations.AmplificationTruncatesTheExactProduct := by
  intro x pre
  constructor
  · intro hout
    have hp : ¬ inS32 (x.toInt * pre.toInt) = true := by
      rw [inS32_iff]
      omega
    exact amp_of_not_fits (Bool.eq_false_iff.2 hp)
  · intro hlo hhi
    have hv := amp_of_fits ((inS32_iff (x.toInt * pre.toInt)).2 (by omega))
    exact ⟨_, hv, (amp_some hv).2⟩

/-- Settles O30: the bound of `amp_bounded` on both sides of a delta. -/
theorem deltaCheckNeverFires : Obligations.DeltaCheckNeverFires := by
  intro x pre v x' pre' v' h h'
  have hv := amp_bounded h
  have h0 := delta_of_bounded (prev := 0) hv (by decide)
  exact ⟨hv, delta_of_bounded hv (amp_bounded h'), by simpa using h0⟩

end Sys2Proof.Machine
end

