-- ==== Sys2Proof/Proofs/Mixer.lean ====
section
/-! PROOFS. MIX in closed form (R111): the state a MIX whose walk ends comes to, the frame whose pairs can all be
amplified, the frame that walks no pair (R118), and the carry a frame leaves (R120). -/

namespace Sys2Proof.Machine

/-! ### A MIX whose walk ends -/

/-- The state in which MIX f completes when its walk has come to k: the closed frame with the count handed back. -/
def mixed (f : Word) (k : Walk) (s : State) : State :=
  giveBack (.count (countAnswer (closeFrame f k (mixStart f s)))) (callSamplesAvailable (closeFrame f k (mixStart f s)))

/-- The PSG finalised first makes no difference to the walk. -/
theorem walk_mixStart (f : Word) (s : State) : walk f (mixStart f s) = walk f (advanced f s) := by
  apply walk_congr <;> rw [mixStart, advanced_record]

/-- A MIX in order, with room, whose walk ends completes; `completed_of_mix` is the converse. -/
theorem exec_mix_of_walk {f : Word} {s : State} {k : Walk} (hl : s.Live) (hf : f ≠ 0) (hle : s.last.toNat ≤ f.toNat)
    (hr : Room f s) (hw : walk f (advanced f s) = .ok k) : exec (.mix f) s = .next (mixed f k s) := by
  refine exec_ok hl.1 (mixCheck_none.2 ⟨hl.2, hf, hle⟩) ?_
  have hbody : walkBody f (mixStart f s) = .ok (mixed f k s) := by
    rw [walkBody, walk_mixStart, hw]
    rfl
  exact (mixBody_of_room hr).trans hbody

@[simp] theorem advanced_cfg (t : Word) (s : State) : (advanced t s).cfg = s.cfg := by simp [advanced_frame]

/-- What an advance writes, as one update. -/
theorem advanced_eq (t : Word) (s : State) :
    advanced t s = { s with
      buf := (advanced t s).buf
      blen := (advanced t s).blen
      pt := (advanced t s).pt
      answers := (advanced t s).answers
      draws := (advanced t s).draws
      trace := s.trace ++ generateCall t s } := by
  rcases Nat.lt_or_ge s.pt.toNat t.toNat with h | h
  · rw [advanced_generates h, generateCall, if_pos h]
    rfl
  · rw [advanced_covered h, generateCall, if_neg (Nat.not_lt.2 h), List.append_nil]

/-- The completed frame in terms of the state before it and of the advance. -/
theorem mixed_eq (f : Word) (k : Walk) (s : State) :
    mixed f k s = { s with
      buf := (advanced f s).buf
      cl := k.pl
      cr := k.pr
      blen := 0
      pt := BitVec.ofNat 32 (k.t - f.toNat)
      fs := BitVec.ofNat 32 (k.t - f.toNat)
      last := 0
      answers := { (advanced f s).answers with counts := (advanced f s).answers.counts.tail }
      draws := (advanced f s).draws + freeDraws (advanced f s).answers.counts
      trace := s.trace ++ [.psgEndFrame f] ++ generateCall f s ++ k.calls ++
        [.rsEndFrame f, .rsSamplesAvailable (countAnswer (advanced f s))]
      results := s.results ++ [.count (countAnswer (advanced f s))] } := by
  simp only [mixed, mixStart, advanced_record]
  rw [advanced_eq f s]
  simp [giveBack, callSamplesAvailable, closeFrame, countAnswer]

/-! ### A frame whose pairs can all be amplified -/

/-- A live block of INV2 and INV3 is within a frame or at its boundary. -/
theorem inFrame_of_inv {s : State} (hl : s.Live) (h2 : Inv2 s) (h3 : Inv3 s) : InFrame s :=
  ⟨hl, h2 hl, (needed_iff s).2 (h3 hl)⟩

/-- Every pair of the frame starts below F, and F is reached after the last of them (R114, R115). -/
theorem framePairs_span {f : Word} {s : State} (h : InFrame s) (hle : s.last.toNat ≤ f.toNat) :
    (∀ j, j < (framePairs f s).length → s.fs.toNat + j * cycles s.ratio < f.toNat) ∧ f.toNat ≤ frameEnd f s := by
  have hn : (framePairs f s).length = ceildiv (f.toNat - s.fs.toNat) (cycles s.ratio) := by
    rw [framePairs_length, advanced_blen, blen_add_owed h hle]
  have hcover (n : Nat) := ceildiv_le_iff (cycles_pos s.ratio) (f.toNat - s.fs.toNat) n
  rw [frameEnd, hn]
  constructor
  · intro j hj
    have := mt (hcover j).2 (by omega)
    omega
  · have := (hcover _).1 (Nat.le_refl _)
    omega

/-- The pairs of the frame are no more than the iterations the walk is given. -/
theorem framePairs_length_le {f : Word} {s : State} (h : InFrame s) (hle : s.last.toNat ≤ f.toNat) :
    (framePairs f s).length ≤ f.toNat - s.fs.toNat := by
  rw [framePairs_length, advanced_blen, blen_add_owed h hle, ceildiv_le_iff (cycles_pos _)]
  exact Nat.le_mul_of_pos_right _ (cycles_pos _)

/-- The pairs of the frame are what the walk reads from its start on (R114). -/
theorem nextPairs_framePairs (f : Word) (s : State) :
    nextPairs (walkInput f (advanced f s)) (walkStart (advanced f s)) (framePairs f s).length = framePairs f s := by
  conv_rhs => rw [framePairs_eq]
  simp [nextPairs, walkStart, walkInput, framePairs_length]

/-- The walk over a frame whose pairs can all be amplified, in closed form. -/
theorem walk_framePairs {f : Word} {s : State} (h : InFrame s) (hc : Emitted s.carry) (hle : s.last.toNat ≤ f.toNat)
    (ha : ∀ p ∈ framePairs f s, Amplifiable s.cfg.fmpre p) :
    walk f (advanced f s) =
      .ok (walkedTo (walkInput f (advanced f s)) (walkStart (advanced f s)) (framePairs f s)) := by
  obtain ⟨hbelow, hend⟩ := framePairs_span h hle
  have hw := nextPairs_framePairs f s
  conv_rhs => rw [← hw]
  refine walkWhile_ok ?_ ?_ ?_ ?_ ?_
  · simpa [walkStart, State.carry] using hc
  · simpa using framePairs_length_le h hle
  · simpa [walkStart, walkInput] using hbelow
  · simpa [walkStart, walkInput, frameEnd] using hend
  · rwa [hw, walkInput, advanced_cfg]

/-- Settles O31: the walk in closed form (`walk_framePairs`), and the state MIX completes in after it (`mixed_eq`). -/
theorem mixInClosedForm : Obligations.MixInClosedForm := by
  rintro f s _ _ hl h2 h3 hc hf hle hr ha rfl rfl
  have hw := walk_framePairs (inFrame_of_inv hl h2 h3) ((emitted_carry_iff s).2 (hc hl)) hle ha
  rw [exec_mix_of_walk hl hf hle hr hw, mixed_eq]
  simp [walkedTo, walkStart, walkInput, State.carry, frameEnd]

/-! ### A frame no longer than the residual -/

/-- Settles O35: no sample is owed since the production stands at the residual or beyond, and the walk is given no
iteration. -/
theorem emptyWalkKeepsTheCarry : Obligations.EmptyWalkKeepsTheCarry := by
  rintro f s _ hl h2 hf hle hfs rfl
  have hcov : f.toNat ≤ s.pt.toNat := by
    rw [h2 hl]
    omega
  have hw : walk f (advanced f s) = .ok (walkStart s) := by
    rw [advanced_covered hcov, walk, Nat.sub_eq_zero_of_le hfs, walkWhile]
  have hres : BitVec.ofNat 32 (s.fs.toNat - f.toNat) = s.fs - f := by
    apply BitVec.eq_of_toNat_eq
    rw [BitVec.toNat_sub_of_le hfs, BitVec.toNat_ofNat, Nat.mod_eq_of_lt]
    omega
  rw [exec_mix_of_walk hl hf hle (fun h => absurd h (Nat.not_lt.2 hcov)) hw, mixed_eq, advanced_covered hcov]
  simp [walkStart, generateCall, Nat.not_lt.2 hcov, hres]

/-! ### The carry -/

/-- What holds of every pair n iterations read holds of their cells. -/
theorem forall_mem_nextPairs {w : WalkInput} {k : Walk} {n : Nat} {P : Pair → Prop} :
    (∀ p ∈ nextPairs w k n, P p) ↔ ∀ j < n, P (readPair w.buf (k.i + j)) := by
  simp [nextPairs]

/-- The pairs that a walk which ends has read below F could all be amplified: it would have stopped at the first that
could not (R152). -/
theorem amplifiable_of_walkWhile_ok {w : WalkInput} {fuel n : Nat} {k k' : Walk} (h : walkWhile w fuel k = .ok k')
    (hp : Emitted ⟨k.pl, k.pr⟩) (hf : n ≤ fuel) (ht : ∀ j, j < n → k.t + j * w.step < w.frame) :
    ∀ p ∈ nextPairs w k n, Amplifiable w.pre p := by
  refine forall_mem_nextPairs.2 fun j => ?_
  induction j using Nat.strong_induction_on with
  | _ j ih =>
    intro hj
    by_contra hn
    have hread : ∀ p ∈ nextPairs w k j, Amplifiable w.pre p :=
      forall_mem_nextPairs.2 fun i hi => ih i hi (hi.trans hj)
    cases h.symm.trans (walkWhile_overflow hp (by omega) (fun i hi => ht i (by omega)) hread hn)

/-- A MIX that completes has amplified every pair of its frame. -/
theorem amplifiable_of_mix {f : Word} {s : State} {k : Walk} (h : InFrame s) (hc : Emitted s.carry)
    (hle : s.last.toNat ≤ f.toNat) (hw : walk f (advanced f s) = .ok k) :
    ∀ p ∈ framePairs f s, Amplifiable s.cfg.fmpre p := by
  have ha := amplifiable_of_walkWhile_ok (n := (framePairs f s).length) hw
    (by simpa [walkStart, State.carry] using hc) (by simpa using framePairs_length_le h hle)
    (by simpa [walkStart, walkInput] using (framePairs_span h hle).1)
  rwa [nextPairs_framePairs, walkInput, advanced_cfg] at ha

/-- Settles O40: a MIX that completes is one in closed form, whose carry is the last emitted pair. -/
theorem carryIsTheLastEmittedPair : Obligations.CarryIsTheLastEmittedPair := by
  intro f s t hl h2 h3 hc he ht
  obtain ⟨hf, hle, hr, k, hw, -⟩ := completed_of_mix hl he ht
  have ha := amplifiable_of_mix (inFrame_of_inv hl h2 h3) ((emitted_carry_iff s).2 (hc hl)) hle hw
  cases he.symm.trans (mixInClosedForm f s _ _ hl h2 h3 hc hf hle hr ha rfl rfl)
  constructor
  · intro hnil
    simp [State.carry, hnil]
  · intro p hp
    simp [State.carry, List.getLastD_eq_getLast?, hp]

end Sys2Proof.Machine
end

