-- ==== Sys2Proof/Proofs/Residual.lean ====
section
/-! PROOFS. The account of a frame (R115, R122): the residual before it and a ratio for each delta submitted are the
frame's length and the residual after it. From it the residual after many frames, and its period (R121). -/

namespace Sys2Proof.Machine

/-! ### Deltas submitted -/

/-- A walk that ends has submitted one delta for each pair it has passed (R116). -/
theorem submittedDeltas_walkWhile {w : WalkInput} {fuel : Nat} {k k' : Walk} (h : walkWhile w fuel k = .ok k') :
    submittedDeltas k'.calls + k.i = submittedDeltas k.calls + k'.i := by
  induction fuel generalizing k with
  | zero => cases h; rfl
  | succ fuel ih =>
    unfold walkWhile at h
    split at h
    · split at h
      · rename_i k1 h1
        obtain ⟨-, hi, dl, dr, hcalls⟩ := walkPair_moves h1
        have hone : submittedDeltas [submission w.hq k.t dl dr] = 1 := by
          cases hq : w.hq <;> rfl
        have hrest := ih h
        rw [hcalls, submittedDeltas_append, hone, hi] at hrest
        omega
      · cases h
    · cases h; rfl

/-- An advance submits nothing (R98). -/
theorem submittedDeltas_generateCall (t : Word) (s : State) : submittedDeltas (generateCall t s) = 0 := by
  unfold generateCall
  split <;> rfl

/-! ### The account of one frame, and of many -/

/-- From s to t frames of `span` cycles in all have been mixed, m deltas submitted: the residual before and m ratios are
those cycles and the residual after (R122). -/
structure Accounted (span m : Nat) (s t : State) : Prop where
  live : t.Live
  ratio : t.ratio = s.ratio
  submitted : submittedDeltas t.trace = submittedDeltas s.trace + m
  balance : s.fs.toNat + m * cycles s.ratio = span + t.fs.toNat
  below : s.fs.toNat < cycles s.ratio → t.fs.toNat < cycles s.ratio

theorem Accounted.refl {s : State} (h : s.Live) : Accounted 0 0 s s where
  live := h
  ratio := rfl
  submitted := rfl
  balance := by omega
  below := id

theorem Accounted.trans {span span' m m' : Nat} {s t u : State} (h : Accounted span m s t)
    (h' : Accounted span' m' t u) : Accounted (span + span') (m + m') s u where
  live := h'.live
  ratio := h'.ratio.trans h.ratio
  submitted := by rw [h'.submitted, h.submitted, Nat.add_assoc]
  balance := by
    have h1 := h.balance
    have h2 := h'.balance
    rw [h.ratio] at h2
    rw [Nat.add_mul]
    omega
  below hs := by
    have h2 := h'.below
    rw [h.ratio] at h2
    exact h2 (h.below hs)

/-- The walk of a frame runs a whole number of ratios, one for each delta, to F or beyond it by less than one; when the
residual covers the frame it does not run (R115, R118). -/
theorem walk_overshoot {f : Word} {s : State} {k : Walk} (h : walk f s = .ok k) :
    ∃ m, k.t = s.fs.toNat + m * cycles s.ratio ∧ submittedDeltas k.calls = m ∧ f.toNat ≤ k.t ∧
      (k.t < f.toNat + cycles s.ratio ∨ k.t = s.fs.toNat) ∧ (f.toNat ≤ s.fs.toNat → m = 0) := by
  obtain ⟨m, ht, hi, hend, hlt, hzero, hstay⟩ := walkWhile_runs h
  have hd := submittedDeltas_walkWhile h
  have hreach := hend (cycles_pos _) (Nat.le_refl _)
  simp only [walkStart, walkInput, submittedDeltas] at ht hi hd hreach hlt hzero hstay
  exact ⟨m, ht, by omega, hreach, hlt.imp_right fun hm => by rw [hstay hm], hzero⟩

/-- A frame that completes (R115): what it is accounted for, PT at the residual, and on either side of the old residual
how many pairs it has walked. -/
theorem accounted_of_mix {f : Word} {s t : State} (hl : s.Live) (he : exec (.mix f) s = .next t)
    (ht : t.fault = false) :
    ∃ m, Accounted f.toNat m s t ∧ t.pt = t.fs ∧
      (s.fs.toNat < f.toNat → 1 ≤ m ∧ t.fs.toNat < cycles s.ratio) ∧ (f.toNat ≤ s.fs.toNat → m = 0) := by
  obtain ⟨-, -, -, k, hw, hk⟩ := completed_of_mix hl he ht
  obtain ⟨m, hkt, hd, hreach, hover, hempty⟩ := walk_overshoot hw
  simp only [advanced_fs, advanced_ratio] at hkt hover hempty
  obtain rfl : t = mixed f k s := hk
  have hfs : (mixed f k s).fs.toNat = k.t - f.toNat := by
    have hratio := cycles_bounds s.ratio
    rw [mixed_eq, BitVec.toNat_ofNat, Nat.mod_eq_of_lt]
    omega
  have hsubmitted : submittedDeltas (mixed f k s).trace = submittedDeltas s.trace + m := by
    simp [mixed_eq, submittedDeltas_append, submittedDeltas_generateCall, submittedDeltas, hd]
  refine ⟨m, ⟨by rwa [mixed_eq], by rw [mixed_eq], hsubmitted, by omega, by omega⟩, by rw [mixed_eq], ?_, hempty⟩
  intro hlt
  have hm : m ≠ 0 := by
    rintro rfl
    omega
  exact ⟨Nat.pos_of_ne_zero hm, by omega⟩

/-- Settles O36: the account of one frame. -/
theorem residualIsTheOvershoot : Obligations.ResidualIsTheOvershoot := by
  intro f s t hl he ht
  obtain ⟨m, hacc, hpt, hwalk, hempty⟩ := accounted_of_mix hl he ht
  have hbal := hacc.balance
  refine ⟨hpt, fun hlt => ⟨(hwalk hlt).2, m, (hwalk hlt).1, hbal⟩, fun hle => ?_⟩
  rw [hempty hle] at hbal
  omega

/-- Commands that leave the block without a fault found it without one: the fault flag is sticky (R157). -/
theorem fault_false_of_runCommands {is : List Instr} {s t : State} (h : runCommands is s = .next t)
    (ht : t.fault = false) : s.fault = false := by
  induction is generalizing s with
  | nil => cases h; exact ht
  | cons i is ih =>
    obtain ⟨u, hu⟩ := exec_answers i s
    rw [runCommands, hu] at h
    exact fault_false_of_exec hu (ih h)

/-- Frames that complete, one after the other, are accounted for (R122). -/
theorem accounted_of_frames {fs : List Word} {s t : State} (hl : s.Live)
    (h : runCommands (fs.map .mix) s = .next t) (ht : t.fault = false) :
    ∃ m, Accounted (fs.map BitVec.toNat).sum m s t := by
  induction fs generalizing s with
  | nil =>
    cases h
    exact ⟨0, .refl hl⟩
  | cons f fs ih =>
    obtain ⟨u, hu⟩ := exec_answers (.mix f) s
    rw [List.map_cons, runCommands, hu] at h
    obtain ⟨m, hm, -⟩ := accounted_of_mix hl hu (fault_false_of_runCommands h ht)
    obtain ⟨m', hm'⟩ := ih hm.live h
    exact ⟨m + m', by simpa using hm.trans hm'⟩

/-- Settles O39: the balance of the account, with the submissions it counts. -/
theorem submittedPairsAccountForTheFrames : Obligations.SubmittedPairsAccountForTheFrames := by
  intro fs s t hl h ht
  obtain ⟨m, hacc⟩ := accounted_of_frames hl h ht
  have hbal := hacc.balance
  rw [hacc.submitted, Nat.add_mul]
  omega

/-! ### Frames of one length -/

/-- Settles O37: modulo the ratio the account forgets the submissions, and the residual stays below the ratio. -/
theorem residualAfterFrames : Obligations.ResidualAfterFrames := by
  intro n f s t hl hs h ht
  rw [← List.map_replicate] at h
  obtain ⟨m, hacc⟩ := accounted_of_frames hl h ht
  have hbal := hacc.balance
  have hbelow := hacc.below hs
  rw [List.map_replicate, List.sum_replicate, smul_eq_mul] at hbal
  have hsub : (s.fs.toNat : Int) - n * f.toNat = t.fs.toNat - m * cycles s.ratio := by
    have hbal' : (s.fs.toNat : Int) + m * cycles s.ratio = n * f.toNat + t.fs.toNat := by exact_mod_cast hbal
    linarith
  rw [hsub, Int.sub_mul_emod_self_right, Int.emod_eq_of_lt (by omega) (by exact_mod_cast hbelow)]

/-- p frames of length a make up a whole number of ratios b exactly when b / gcd(a, b) divides p. -/
theorem dvd_mul_iff_div_gcd_dvd {b : Nat} (hb : 0 < b) (a p : Nat) : b ∣ p * a ↔ b / Nat.gcd a b ∣ p := by
  have hz : ((p * a : Nat) : ZMod b) = p • (a : ZMod b) := by simp
  rw [← ZMod.natCast_eq_zero_iff, hz, ← addOrderOf_dvd_iff_nsmul_eq_zero, ZMod.addOrderOf_coe a hb.ne', Nat.gcd_comm]

/-- Settles O38: by R121's closed form the residuals differ by p frames modulo the ratio. -/
theorem residualPeriodIsExact : Obligations.ResidualPeriodIsExact := by
  intro n p f s t u hl hs hrun ht hrun' hu
  have hres := residualAfterFrames n f s t hl hs hrun ht
  have hres' := residualAfterFrames (n + p) f s u hl hs hrun' hu
  have hdiff : ((s.fs.toNat : Int) - (n + p : Nat) * f.toNat) - (s.fs.toNat - n * f.toNat) =
      -((p * f.toNat : Nat) : Int) := by
    push_cast
    ring
  rw [← dvd_mul_iff_div_gcd_dvd (cycles_pos _), ← BitVec.toNat_inj, ← Int.natCast_inj, hres, hres',
    Int.emod_eq_emod_iff_emod_sub_eq_zero, hdiff, ← Int.dvd_iff_emod_eq_zero, Int.dvd_neg, Int.natCast_dvd_natCast]

end Sys2Proof.Machine
end

