-- ==== Sys2Proof/Proofs/MixingMode.lean ====
section
/-! PROOFS. The mixing mode CFG.HQ (R27, R117): one MIX run in either mode, from the same registers and the same
answers, with the calls of each mode written as a function of the mode. -/

namespace Sys2Proof.Machine

/-! ### Calls in either mode -/

/-- The calls of the two modes correspond: with CFG.HQ false no delta goes to `RS.addDelta`, and with it true the same
calls are made band-limited (R117). -/
structure ModalCalls (calls : Bool → List Event) : Prop where
  fast : ∀ e ∈ calls false, ∀ x dl dr, e ≠ .rsAddDelta x dl dr
  same : calls true = (calls false).map bandLimited

theorem ModalCalls.append {calls calls' : Bool → List Event} (h : ModalCalls calls) (h' : ModalCalls calls') :
    ModalCalls fun b => calls b ++ calls' b where
  fast e he := (List.mem_append.1 he).elim (h.fast e) (h'.fast e)
  same := by simp [h.same, h'.same]

/-- The submission of one delta. -/
theorem modalCalls_submission (t : Nat) (dl dr : S32) : ModalCalls fun b => [submission b t dl dr] where
  fast := by simp [submission]
  same := rfl

/-- The call of an advance is the same in either mode. -/
theorem modalCalls_generateCall (t : Word) (s : State) : ModalCalls fun _ => generateCall t s := by
  unfold generateCall
  split
  · exact ⟨by simp, rfl⟩
  · exact ⟨by simp, rfl⟩

/-! ### The walk in either mode -/

/-- One iteration in either mode: both stop, or both submit the same delta. -/
theorem walkPair_modal (w : WalkInput) (k : Walk) (calls : Bool → List Event) :
    (∀ b, walkPair { w with hq := b } { k with calls := calls b } = none) ∨
      ∃ (k' : Walk) (dl dr : S32), ∀ b, walkPair { w with hq := b } { k with calls := calls b } =
        some { k' with calls := calls b ++ [submission b k.t dl dr] } := by
  cases hl : amp (readPair w.buf k.i).l w.pre with
  | none => exact .inl fun b => by simp [walkPair, hl]
  | some l =>
    cases hr : amp (readPair w.buf k.i).r w.pre with
    | none => exact .inl fun b => by simp [walkPair, hl, hr]
    | some r =>
      cases hdl : delta l k.pl with
      | none => exact .inl fun b => by simp [walkPair, hl, hr, hdl]
      | some dl =>
        cases hdr : delta r k.pr with
        | none => exact .inl fun b => by simp [walkPair, hl, hr, hdl, hdr]
        | some dr =>
          exact .inr ⟨{ k with t := k.t + w.step, i := k.i + 1, pl := l, pr := r }, dl, dr,
            fun b => by simp [walkPair, hl, hr, hdl, hdr]⟩

/-- The walk in either mode: both end or both overflow, in the same place, with corresponding calls. -/
theorem walkWhile_modal (w : WalkInput) (fuel : Nat) (k : Walk) {calls : Bool → List Event} (hc : ModalCalls calls) :
    ∃ (k' : Walk) (calls' : Bool → List Event), ModalCalls calls' ∧
      ((∀ b, walkWhile { w with hq := b } fuel { k with calls := calls b } = .ok { k' with calls := calls' b }) ∨
        ∀ b, walkWhile { w with hq := b } fuel { k with calls := calls b } = .error { k' with calls := calls' b }) := by
  induction fuel generalizing k calls with
  | zero => exact ⟨k, calls, hc, .inl fun b => rfl⟩
  | succ fuel ih =>
    by_cases hlt : k.t < w.frame
    · rcases walkPair_modal w k calls with hnone | ⟨k1, dl, dr, hsome⟩
      · exact ⟨k, calls, hc, .inr fun b => by rw [walkWhile, if_pos hlt, hnone]⟩
      · have hstep (b : Bool) : walkWhile { w with hq := b } (fuel + 1) { k with calls := calls b } =
            walkWhile { w with hq := b } fuel { k1 with calls := calls b ++ [submission b k.t dl dr] } := by
          rw [walkWhile, if_pos hlt, hsome]
        simp only [hstep]
        exact ih k1 (hc.append (modalCalls_submission k.t dl dr))
    · exact ⟨k, calls, hc, .inl fun b => by rw [walkWhile, if_neg hlt]⟩

/-! ### The operations in either mode

Each of them does to the registers what it does in any other configuration, and adds the same calls to the trace. -/

/-- The state u of a MIX begun in s, as mode b has it: its configuration, and its calls after the trace of s. -/
def inMode (s : State) (b : Bool) (calls : List Event) (u : State) : State :=
  { u with cfg := { s.cfg with hq := b }, trace := s.trace ++ calls }

theorem record_inMode (s u : State) (b : Bool) (calls : List Event) (e : Event) :
    record e (inMode s b calls u) = inMode s b (calls ++ [e]) u := by
  simp [inMode, record]

theorem raiseFault_inMode (s u : State) (b : Bool) (calls : List Event) (c : Cause) :
    raiseFault c (inMode s b calls u) = inMode s b (calls ++ [.fault c]) (raiseFault c u) := by
  simp [inMode, raiseFault, record]

theorem raiseFaultDuring_inMode (s u : State) (b : Bool) (calls : List Event) (c : Cause) :
    raiseFaultDuring c (inMode s b calls u) = inMode s b (calls ++ [.fault c]) (raiseFaultDuring c u) :=
  raiseFault_inMode s (unspecifyRegisters u) b calls c

theorem generate_inMode (n : Nat) (s u : State) (b : Bool) (calls : List Event) :
    generate n (inMode s b calls u) = inMode s b (calls ++ [.fmGenerate n (drawnPairs n u)]) (generate n u) := by
  simp [inMode, generate, record, dropPairs, drawnPairs]

theorem advanced_inMode (t : Word) (s u : State) (b : Bool) (calls : List Event) :
    advanced t (inMode s b calls u) = inMode s b (calls ++ generateCall t u) (advanced t u) := by
  rcases Nat.lt_or_ge u.pt.toNat t.toNat with h | h
  · rw [advanced_generates (s := inMode s b calls u) h, advanced_generates h, generateCall, if_pos h]
    exact generate_inMode (owed t u) s u b calls
  · rw [advanced_covered (s := inMode s b calls u) h, advanced_covered h, generateCall, if_neg (Nat.not_lt.2 h),
      List.append_nil]

/-- An advance without room faults in either mode with the same cause, before any call (R150, R151). -/
theorem advance_inMode_error {t : Word} {u : State} (h : ¬ Room t u) (s : State) (calls : List Event) :
    ∃ c, ∀ b, advance t (inMode s b calls u) = .error (c, inMode s b calls u) := by
  rcases advance_cases t u with ⟨h1, -⟩ | ⟨h1, h2, -⟩ | ⟨h1, h2, h3, -⟩ | ⟨-, h2, h3, -⟩
  · exact absurd (fun hlt => absurd hlt (Nat.not_lt.2 h1)) h
  · exact ⟨_, fun b => advance_bufferOverflow (s := inMode s b calls u) h1 h2⟩
  · exact ⟨_, fun b => advance_counterOverflow (s := inMode s b calls u) h1 h2 h3⟩
  · exact absurd (fun _ => ⟨h2, h3⟩) h

/-! ### MIX in either mode -/

/-- An execution ends alike in either mode: it completes, or raises the same cause, with corresponding calls. -/
def EndsInMode (s : State) (x : Bool → Attempt) : Prop :=
  ∃ u calls, ModalCalls calls ∧
    ((∀ b, x b = .ok (inMode s b (calls b) u)) ∨ ∃ c, ∀ b, x b = .error (c, inMode s b (calls b) u))

/-- The walk of MIX and the closed frame after it (R111 steps 3 to 8). -/
theorem walkBody_inMode (f : Word) (s u : State) {calls : Bool → List Event} (hc : ModalCalls calls) :
    EndsInMode s fun b => walkBody f (inMode s b (calls b) u) := by
  have hnil : ModalCalls fun _ => [] := ⟨by simp, rfl⟩
  obtain ⟨k, deltas, hd, hok | herr⟩ :=
    walkWhile_modal { walkInput f u with pre := s.cfg.fmpre } (f.toNat - u.fs.toNat) (walkStart u) hnil
  · refine ⟨giveBack (.count (countAnswer u)) (callSamplesAvailable (closeFrame f k u)),
      fun b => calls b ++ deltas b ++ [.rsEndFrame f, .rsSamplesAvailable (countAnswer u)],
      (hc.append hd).append ⟨by simp, rfl⟩, .inl fun b => ?_⟩
    have hw : walk f (inMode s b (calls b) u) = .ok { k with calls := deltas b } := hok b
    beta_reduce
    rw [walkBody, hw]
    simp [inMode, closeFrame, callSamplesAvailable, giveBack, countAnswer]
  · refine ⟨u, fun b => calls b ++ deltas b, hc.append hd, .inr ⟨.arithOverflow, fun b => ?_⟩⟩
    have hw : walk f (inMode s b (calls b) u) = .error { k with calls := deltas b } := herr b
    beta_reduce
    rw [walkBody, hw]
    simp [inMode]

/-- The whole execution of MIX. -/
theorem mixBody_inMode (f : Word) (s : State) : EndsInMode s fun b => mixBody f (inMode s b [] s) := by
  have hpsg : ModalCalls fun _ => [.psgEndFrame f] := ⟨by simp, rfl⟩
  by_cases hr : Room f s
  · have hbody (b : Bool) : mixBody f (inMode s b [] s) =
        walkBody f (inMode s b ([.psgEndFrame f] ++ generateCall f s) (advanced f s)) := by
      rw [mixBody_of_room (s := inMode s b [] s) hr, record_inMode, advanced_inMode]
      rfl
    simp only [hbody]
    exact walkBody_inMode f s _ (hpsg.append (modalCalls_generateCall f s))
  · obtain ⟨c, hc⟩ := advance_inMode_error hr s [.psgEndFrame f]
    refine ⟨s, _, hpsg, .inr ⟨c, fun b => ?_⟩⟩
    beta_reduce
    rw [mixBody, record_inMode]
    exact andThen_of_error (hc b)

/-- MIX comes to the same state in either mode but for corresponding calls: refused, checked, completed or faulted. -/
theorem exec_mix_inMode (f : Word) (s : State) :
    ∃ t calls, ModalCalls calls ∧ ∀ b, exec (.mix f) (inMode s b [] s) = .next (inMode s b (calls b) t) := by
  have hfault (c : Cause) : ModalCalls fun _ => [.fault c] := ⟨by simp, rfl⟩
  cases hf : s.fault with
  | true => exact ⟨s, fun _ => [], ⟨by simp, rfl⟩, fun b => exec_of_faulted (s := inMode s b [] s) hf⟩
  | false =>
    cases hck : mixCheck f s with
    | some c =>
      refine ⟨raiseFault c s, _, hfault c, fun b => ?_⟩
      rw [exec_checked (i := .mix f) (s := inMode s b [] s) hf hck, raiseFault_inMode]
      rfl
    | none =>
      obtain ⟨u, calls, hc, hok | ⟨c, herr⟩⟩ := mixBody_inMode f s
      · exact ⟨u, calls, hc, fun b => exec_ok (s := inMode s b [] s) hf hck (hok b)⟩
      · refine ⟨raiseFaultDuring c u, _, hc.append (hfault c), fun b => ?_⟩
        rw [exec_error (i := .mix f) (s := inMode s b [] s) hf hck (herr b), raiseFaultDuring_inMode]

/-- Settles O41: the two runs are `exec_mix_inMode` for either mode. -/
theorem mixingModeChangesOnlyTheCall : Obligations.MixingModeChangesOnlyTheCall := by
  intro f s
  obtain ⟨t, calls, ⟨hfast, hsame⟩, he⟩ := exec_mix_inMode f s
  have hstart (b : Bool) : { s with cfg := { s.cfg with hq := b } } = inMode s b [] s := by simp [inMode]
  refine ⟨inMode s false (calls false) t, calls false, ?_, rfl, hfast, ?_⟩
  · rw [hstart, he]
  · rw [hstart, he, hsame]
    rfl

end Sys2Proof.Machine
end

