-- ==== Sys2Proof/Proofs/Serializer.lean ====
section
/-! PROOFS. The State Serializer (43_serializer.md): the parts of a byte string of the persisted layout (R128), what
SAVE and LOAD between frames come to, and the round trips through both (R132, R133). -/

namespace Sys2Proof.Machine

/-! ### The bytes of the layout (R128) -/

/-- The discriminator field, variant by variant. -/
theorem discField_eq (p : Params) (v : Variant) :
    discField p v =
      if p.dualFm = true ∧ v = .std then [0x00] else if p.dualFm = true ∧ v = .hp then [0x01] else [] := by
  cases hd : p.dualFm <;> cases v <;> simp [discField, hasDisc, disc, hd]

/-- The discriminator field begins with the discriminator when there is one. -/
theorem head?_discField {p : Params} {v : Variant} (h : hasDisc p v = true) :
    (discField p v).head? = some (disc v) := by
  simp [discField, h]

/-- `le32` as numbers (R14). -/
theorem le32_eq (w : Word) :
    le32 w = [BitVec.ofNat 8 w.toNat, BitVec.ofNat 8 (w.toNat / 2 ^ 8), BitVec.ofNat 8 (w.toNat / 2 ^ 16),
      BitVec.ofNat 8 (w.toNat / 2 ^ 24)] := by
  simp only [le32, BitVec.extractLsb', Nat.shiftRight_eq_div_pow, Nat.pow_zero, Nat.div_one]

/-- The middle of three lists is the slice between the lengths before and after it. -/
theorem slice_middle (xs ys zs : List Byte) : slice (xs ++ ys ++ zs) xs.length (xs.length + ys.length) = ys := by
  simp [slice]

/-- A byte of the second of two lists. -/
theorem byteAt_append (xs ys : List Byte) (i : Nat) : byteAt (xs ++ ys) (xs.length + i) = byteAt ys i := by
  simp only [byteAt, List.getD_eq_getElem?_getD, List.getElem?_append_right (Nat.le_add_right _ _),
    Nat.add_sub_cancel_left]

section Layout

variable {p : Params} {v : Variant} {fb pb : List Byte} (hf : fb.length = fmLen p v) (hp : pb.length = p.psgLen)
include hf

/-- The FM blob follows the discriminator field. -/
theorem fmPart_layout (rest : List Byte) : fmPart p v (discField p v ++ fb ++ rest) = fb := by
  rw [fmPart, ← discField_length, ← hf, slice_middle]

include hp

/-- The PSG blob follows discriminator and FM blob. -/
theorem psgPart_layout (rest : List Byte) : psgPart p v (discField p v ++ fb ++ pb ++ rest) = pb := by
  rw [psgPart, ← discField_length, ← hf, ← hp, ← List.length_append, slice_middle]

/-- The frame-start is the four bytes after both blobs, least significant first. -/
theorem fsPart_layout (b0 b1 b2 b3 : Byte) :
    fsPart p v (discField p v ++ fb ++ pb ++ [b0, b1, b2, b3]) = unle32 b0 b1 b2 b3 := by
  have hbyte := byteAt_append (discField p v ++ fb ++ pb) [b0, b1, b2, b3]
  simp only [List.length_append, discField_length, hf, hp] at hbyte
  have h0 := hbyte 0
  rw [Nat.add_zero] at h0
  rw [fsPart, h0, hbyte, hbyte, hbyte]
  rfl

/-- The total length is `L(v)`. -/
theorem length_layout {tail : List Byte} (ht : tail.length = 4) :
    (discField p v ++ fb ++ pb ++ tail).length = layoutLen p v := by
  simp only [List.length_append, discField_length, hf, hp, ht, layoutLen]

end Layout

/-! ### LOAD -/

/-- Settles O44: a byte string of the layout passes LOAD's checks, and its parts are those it was put together from. -/
theorem loadRestoresTheLayout : Obligations.LoadRestoresTheLayout := by
  refine ⟨fun _ => rfl, fun s fb pb b0 b1 b2 b3 hl h0 hf hp => ?_⟩
  have hhead (h : hasDisc s.params s.var = true) :
      (discField s.params s.var ++ fb ++ pb ++ [b0, b1, b2, b3]).head? = some (disc s.var) := by
    rw [List.append_assoc, List.append_assoc, List.head?_append, head?_discField h, Option.some_or]
  have hcheck : loadCheck (discField s.params s.var ++ fb ++ pb ++ [b0, b1, b2, b3]) s = none :=
    loadCheck_none.2 ⟨hl.2, h0, hhead, length_layout hf hp rfl⟩
  refine exec_ok hl.1 hcheck (congrArg Except.ok ?_)
  rw [loadLayout, fsPart_layout hf hp, psgPart_layout hf hp, List.append_assoc _ pb, fmPart_layout hf]
  rfl

/-- LOAD of what was persisted of s, in a block of the same build and variant (R131). -/
theorem exec_load_persisted {s t : State} {fb pb : List Byte} (hl : t.Live) (h0 : t.blen = 0)
    (hpar : t.params = s.params) (hvar : t.var = s.var) (hf : fb.length = fmLen s.params s.var)
    (hp : pb.length = s.params.psgLen) :
    exec (.load (persisted s fb pb)) t = .next
      { t with
        fs := s.fs
        pt := s.fs
        last := 0
        trace := t.trace ++ [.fmLoadState fb, .psgLoadState pb] } := by
  rw [← hpar, ← hvar] at hf
  rw [← hpar] at hp
  rw [persisted, ← hpar, ← hvar, le32, loadRestoresTheLayout.2 t fb pb _ _ _ _ hl h0 hf hp, ← unle32, unle32_le32]

/-! ### SAVE -/

/-- The state in which SAVE completes: both answers used up, both calls recorded, the persisted state handed back. -/
def saved (s : State) : State :=
  { s with
    answers := { s.answers with fmBlobs := s.answers.fmBlobs.tail, psgBlobs := s.answers.psgBlobs.tail }
    draws := s.draws + freeDraws s.answers.fmBlobs + freeDraws s.answers.psgBlobs
    trace := s.trace ++ [.fmSaveState (fmSaveAnswer s), .psgSaveState (psgSaveAnswer (callFmSave s))]
    results := s.results ++ [.bytes (persisted s (fmSaveAnswer s) (psgSaveAnswer (callFmSave s)))] }

/-- Both engines have answered blobs of their length (R128). -/
structure BlobsFit (s : State) : Prop where
  fm : (fmSaveAnswer s).length = fmLen s.params s.var
  psg : (psgSaveAnswer (callFmSave s)).length = s.params.psgLen

/-- SAVE's execution completes exactly when the blobs fit (R130). -/
theorem saveBody_ok_iff {s t : State} : saveBody s = .ok t ↔ BlobsFit s ∧ t = saved s := by
  have hcalls : giveBack (.bytes (persisted s (fmSaveAnswer s) (psgSaveAnswer (callFmSave s))))
      (callPsgSave (callFmSave s)) = saved s := by
    simp [giveBack, callPsgSave, callFmSave, saved]
  constructor
  · intro h
    refine ⟨?_, (saveBody_ok h).trans hcalls⟩
    unfold saveBody at h
    split at h
    · cases h
    · split at h
      · cases h
      · exact ⟨not_not.1 ‹_›, not_not.1 ‹_›⟩
  · rintro ⟨⟨hf, hp⟩, rfl⟩
    rw [saveBody, if_neg (not_not.2 hf), if_neg (not_not.2 hp), hcalls]

/-- Settles O43: SAVE completes in `saved`, and the persisted state is the bytes as written out. -/
theorem saveWritesTheLayout : Obligations.SaveWritesTheLayout := by
  refine ⟨rfl, ?_⟩
  rintro s _ _ b hl h0 rfl rfl hf hp hb
  rw [← discField_eq, ← le32_eq] at hb
  subst hb
  exact ⟨length_layout hf hp (le32_length _),
    exec_ok hl.1 (saveCheck_none.2 ⟨hl.2, h0⟩) (saveBody_ok_iff.2 ⟨⟨hf, hp⟩, rfl⟩)⟩

/-- A SAVE that completes with result b found the block between frames, got blobs that fit, and b is the persisted
state. -/
theorem completed_of_save {s t : State} {b : List Byte} (hs : s.fault = false) (he : exec .save s = .next t)
    (ht : t.fault = false) (hr : t.results = s.results ++ [.bytes b]) :
    s.blen = 0 ∧ BlobsFit s ∧ t = saved s ∧ b = persisted s (fmSaveAnswer s) (psgSaveAnswer (callFmSave s)) := by
  obtain ⟨hc, hb⟩ := completed_of_exec hs he ht
  obtain ⟨hfit, rfl⟩ := saveBody_ok_iff.1 hb
  refine ⟨(saveCheck_none.1 hc).2, hfit, rfl, ?_⟩
  simpa [saved] using hr.symm

/-! ### Through SAVE and LOAD -/

/-- Between frames the production stands at the frame's start (INV2). -/
theorem pt_eq_fs_of_blen {s : State} (h2 : Inv2 s) (hl : s.Live) (h0 : s.blen = 0) : s.pt = s.fs := by
  apply BitVec.eq_of_toNat_eq
  rw [h2 hl, h0, Nat.zero_mul, Nat.add_zero]

/-- Settles O47: LOAD restores the frame-start that SAVE wrote, where PT stands between frames. -/
theorem saveThenLoadKeepsTheRegisters : Obligations.SaveThenLoadKeepsTheRegisters := by
  intro s t b hl h2 he ht hr
  obtain ⟨h0, hfit, rfl, rfl⟩ := completed_of_save hl.1 he ht hr
  refine ⟨?_, rfl, rfl, rfl, rfl, rfl, rfl, rfl, rfl, rfl, rfl⟩
  rw [exec_load_persisted (s := s) (t := saved s) hl h0 rfl rfl hfit.fm hfit.psg]
  have hpt : (saved s).pt = s.fs := pt_eq_fs_of_blen h2 hl h0
  rw [hpt]
  rfl

/-- Two blocks between frames that have seen no timestamp are the same in everything to come when variant, build,
configuration, carry, frame-start and answers are: the invariants fix ratio, PT and cause, and no pair is valid. -/
theorem sameToCome_of_betweenFrames {s s' : State} (hi : Inv s) (hi' : Inv s') (hb : s.BetweenFrames)
    (hb' : s'.BetweenFrames) (hlast : s.last = 0) (hlast' : s'.last = 0) (hvar : s'.var = s.var)
    (hpar : s'.params = s.params) (hcfg : s'.cfg = s.cfg) (hcarry : s'.carry = s.carry) (hfs : s'.fs = s.fs)
    (hans : s'.answers = s.answers) (hdraws : s'.draws = s.draws) : SameToCome s s' := by
  obtain ⟨hl, h0⟩ := hb
  obtain ⟨hl', h0'⟩ := hb'
  obtain ⟨hcl, hcr⟩ := Pair.mk.inj hcarry
  have hratio {u : State} (hu : Inv u) (hlu : u.Live) : u.ratio = ratioOf u.var :=
    ((hu.backend hlu.1).2 (by simp [hlu.2])).2
  have hr : s'.ratio = s.ratio := by rw [hratio hi hl, hratio hi' hl', hvar]
  have hpt : s'.pt = s.pt := by rw [pt_eq_fs_of_blen hi.inv2 hl h0, pt_eq_fs_of_blen hi'.inv2 hl' h0', hfs]
  have hcause : s'.fcause = s.fcause := by rw [hi.cause.1 hl.1, hi'.cause.1 hl'.1]
  refine ⟨?_, fun i hlt => absurd hlt (by simp [h0])⟩
  cases s'
  rw [State.mk.injEq]
  exact ⟨hpar, hcfg, hvar, hr, hpt, hfs, hcl, hcr, h0'.trans h0.symm, rfl, hl'.2.trans hl.2.symm,
    hlast'.trans hlast.symm, hl'.1.trans hl.1.symm, hcause, rfl, hans, hdraws, rfl, rfl⟩

/-- Settles O48: after SAVE and LOAD the two blocks are the same in everything to come, so what they go on to add is the
same (R37, R183). -/
theorem restoredBlockGoesOnAlike : Obligations.RestoredBlockGoesOnAlike := by
  intro x x' y y' b is hx hy hlx hly h0x h0y hlast hvar hpar hcfg hcarry hsave hok hres hload hans hdraws
  have hx' : Inv x' := inv_exec hx hsave
  have hy' : Inv y' := inv_exec hy hload
  obtain ⟨-, hfit, rfl, rfl⟩ := completed_of_save hlx.1 hsave hok hres
  cases next_inj.1 (hload.symm.trans (exec_load_persisted hly h0y hpar hvar hfit.fm hfit.psg))
  obtain ⟨t, u, es, rs, ht, hu, hsame, htr, hur, hrt, hru⟩ :=
    stalePairsAndHistoryMakeNoDifference is _ _ hx' hy'
      (sameToCome_of_betweenFrames hx' hy' ⟨hlx, h0x⟩ ⟨hly, h0y⟩ hlast rfl hvar hpar hcfg hcarry rfl hans hdraws)
  have hfault : u.fault = t.fault ∧ u.fcause = t.fcause := by
    rw [hsame.1]
    exact ⟨rfl, rfl⟩
  exact ⟨t, u, es, rs, ht, hu, htr, hur, hrt, hru, hfault.1.symm, hfault.2.symm⟩

end Sys2Proof.Machine
end

