-- ==== Sys2Proof/Proofs/FaultEntry.lean ====
section
/-! PROOFS. Fault entry (60_exceptions.md): the codes of the causes (R142), the two ways a command comes to fault
(R154 to R156), and the block that has faulted (R157). -/

namespace Sys2Proof.Machine

/-- Settles O49: each code by the table, the bound cause by cause. -/
theorem causeCodesAsTabulated : Obligations.CauseCodesAsTabulated := by
  refine ⟨rfl, rfl, rfl, rfl, rfl, rfl, rfl, rfl, rfl, rfl, rfl, fun c => ?_⟩
  cases c <;> decide

/-! ### How a command faults -/

/-- A command that faults has failed its check, or its execution has raised the cause; `completed_of_exec` is the other
way to end. -/
theorem faulted_of_exec {i : Instr} {s t : State} (hs : s.fault = false) (he : exec i s = .next t)
    (ht : t.fault = true) :
    (∃ c, checkOf i s = some c ∧ t = raiseFault c s) ∨
      ∃ c u, bodyOf i s = .error (c, u) ∧ t = raiseFaultDuring c u := by
  obtain ⟨u, hu, h⟩ := exec_cases i s
  cases next_inj.1 (he.symm.trans hu)
  rcases h with ⟨hf, -⟩ | ⟨-, h⟩ | ⟨-, -, hb⟩ | ⟨-, -, h⟩
  · simp [hs] at hf
  · exact .inl h
  · obtain ⟨⟨-, -, -, hf, -⟩, -⟩ := body_ok_frame hb
    simp [ht, hs] at hf
  · exact .inr h

/-- A failed check is a fault with no call before it (R156 on groups 2 and 3). -/
theorem abortedWith_raiseFault (c : Cause) (s : State) : AbortedWith c [] s (raiseFault c s) :=
  ⟨rfl, rfl, by simp, rfl, rfl, rfl, rfl⟩

/-- An execution that ends in a fault with these calls made is aborted with them (R156 on group 4). -/
theorem abortedWith_of_error {i : Instr} {s u : State} {c : Cause} {calls : List Event}
    (hb : bodyOf i s = .error (c, u)) (hcalls : u.trace = s.trace ++ calls) :
    AbortedWith c calls s (raiseFaultDuring c u) := by
  obtain ⟨-, ⟨hparams, hcfg, hinbox, -, -⟩, -, hresults⟩ := body_error_frame hb
  exact ⟨rfl, rfl, by simp [hcalls], hresults, hinbox, hcfg, hparams⟩

/-- A command whose check passes and whose execution ends in a fault, with the calls made before it. -/
theorem exec_aborts {i : Instr} {s u : State} {c : Cause} {calls : List Event} (hs : s.fault = false)
    (hc : checkOf i s = none) (hb : bodyOf i s = .error (c, u)) (hcalls : u.trace = s.trace ++ calls) :
    ∃ t, exec i s = .next t ∧ AbortedWith c calls s t :=
  ⟨_, exec_error hs hc hb, abortedWith_of_error hb hcalls⟩

/-- Settles O50: a failed check makes no call, and an execution makes no fault event of its own. -/
theorem faultEntryRecordsOneCause : Obligations.FaultEntryRecordsOneCause := by
  intro i s t hs he ht
  rcases faulted_of_exec hs he ht with ⟨c, -, rfl⟩ | ⟨c, u, hb, rfl⟩
  · exact ⟨c, [], abortedWith_raiseFault c s, by simp⟩
  · obtain ⟨-, -, ⟨calls, hcalls, hnone⟩, -⟩ := body_error_frame hb
    exact ⟨c, calls, abortedWith_of_error hb hcalls, hnone⟩

/-- Settles O51: the causes left are none that an execution raises (`RaisedDuring`), so the check has failed. -/
theorem earlyCausesArePrecise : Obligations.EarlyCausesArePrecise := by
  intro i s t hs he ht hbuffer hcounter harith hblob
  rcases faulted_of_exec hs he ht with ⟨c, -, rfl⟩ | ⟨c, u, hb, rfl⟩
  · exact ⟨c, rfl⟩
  · rcases (body_error_frame hb).1 with rfl | rfl | rfl | ⟨rfl, hsave⟩
    · exact absurd rfl hbuffer
    · exact absurd rfl hcounter
    · exact absurd rfl harith
    · exact absurd hsave (hblob rfl)

/-! ### The faulted block -/

/-- A step of a faulted block takes items from the host and does no more (R157). -/
theorem step_of_faulted {s t : State} (hs : s.fault = true) (h : step s = .next t) : ∃ c rest, t = taken c rest s := by
  rcases step_cases h with rfl | ⟨c, rest, rfl⟩ | ⟨i, rest, -, he⟩ | ⟨why, rest, -, he⟩
  · exact ⟨t.cfg, t.inbox, rfl⟩
  · exact ⟨c, rest, rfl⟩
  · exact ⟨s.cfg, rest, next_inj.1 (he.symm.trans (exec_of_faulted hs))⟩
  · exact ⟨s.cfg, rest, next_inj.1 (he.symm.trans (illegalCommand_of_faulted hs))⟩

/-- A run of one step and more goes on from the state after the step. -/
theorem run_succ {M : Host.Core} {k : Nat} {s t : M.State} (h : M.run (k + 1) s = .next t) :
    ∃ u, M.step s = .next u ∧ M.run k u = .next t := by
  unfold Host.Core.run at h
  split at h
  · exact ⟨_, ‹_›, h⟩
  · cases h
  · cases h

/-- Any number of steps of a faulted block take items from the host and do no more. -/
theorem run_of_faulted {k : Nat} {s t : State} (hs : s.fault = true) (h : core.run k s = .next t) :
    ∃ c rest, t = taken c rest s := by
  induction k generalizing s with
  | zero =>
    cases h
    exact ⟨t.cfg, t.inbox, rfl⟩
  | succ k ih =>
    obtain ⟨u, hu, hrun⟩ := run_succ h
    obtain ⟨c, rest, rfl⟩ := step_of_faulted hs hu
    exact ih (s := taken c rest s) hs hrun

/-- Settles O52: a refused command, and a run that only takes items. -/
theorem faultedBlockTakesNoCommand : Obligations.FaultedBlockTakesNoCommand := by
  refine ⟨fun _ _ => exec_of_faulted, fun k s t hs h => ?_⟩
  obtain ⟨c, rest, rfl⟩ := run_of_faulted hs h
  rfl

end Sys2Proof.Machine
end

