-- ==== Sys2Proof/Proofs/HostItems.lean ====
section
/-! PROOFS. What a step does with whatever is no command handed over with its operand (R28, R72, R161, R166). -/

namespace Sys2Proof

/-- A command word that asks for an operand word, with none after it. -/
theorem decode_of_missing_word {w0 : Word} (h : operandKind (opField w0) = .word) {rest : List HostItem}
    (hn : ∀ w1 more, rest ≠ .word w1 :: more) : decode (.word w0 :: rest) = .operandMissing := by
  cases rest with
  | nil => simp only [decode, decodeCommand, h]
  | cons item more =>
    cases item with
    | word w1 => exact absurd rfl (hn w1 more)
    | bytes | config => simp only [decode, decodeCommand, h]

/-- A command word that asks for a byte string, with none after it. -/
theorem decode_of_missing_bytes {w0 : Word} (h : operandKind (opField w0) = .bytes) {rest : List HostItem}
    (hn : ∀ b more, rest ≠ .bytes b :: more) : decode (.word w0 :: rest) = .operandMissing := by
  cases rest with
  | nil => simp only [decode, decodeCommand, h]
  | cons item more =>
    cases item with
    | bytes b => exact absurd rfl (hn b more)
    | word | config => simp only [decode, decodeCommand, h]

namespace Machine

/-- Settles O11: the arm of `step` for each answer of the decoder that is neither a command nor an illegal word. -/
theorem stepOnOtherItems : Obligations.StepOnOtherItems := by
  refine ⟨fun s h => ?_, fun s c rest h => ?_, fun s b rest h => ?_, fun s w0 rest h hmissing => ?_⟩
  · rw [step, h, decode]
  · rw [step, h, decode]
  · rw [step, h, decode]
  · rw [step, h]
    rcases hmissing with ⟨hk, hn⟩ | ⟨hk, hn⟩
    · rw [decode_of_missing_word hk hn]
    · rw [decode_of_missing_bytes hk hn]

end Machine

end Sys2Proof
end

