-- ==== Sys2Proof/Proofs/Rejections.lean ====
section
/-! PROOFS. The checks that reject a command before it does anything, in the order of R154: the phase (R144), then what
each command asks of its operand (R146 to R149, R153). -/

namespace Sys2Proof.Machine

/-! ### When a check fails -/

/-- Outside PHASE RUNNING every command but the session commands is rejected first of all (R144). -/
theorem checkOf_not_running {i : Instr} {s : State} (hp : s.phase ≠ .running) (hsel : i ≠ .select) (hres : i ≠ .reset) :
    checkOf i s = some .notReady := by
  cases i with
  | select => exact absurd rfl hsel
  | reset => exact absurd rfl hres
  | advance | fmw | fmr | mix | save | load => exact if_pos hp

/-- A command that presents a timestamp is no session command. -/
theorem not_session_of_stamp {i : Instr} {cyc : Word} (hi : stampOf i = some cyc) : i ≠ .select ∧ i ≠ .reset := by
  constructor
  · rintro rfl
    cases hi
  · rintro rfl
    cases hi

/-- FMR is rejected on SIMP before its timestamp is looked at (R147). -/
theorem readCheck_unsupported {cyc : Word} {s : State} (hp : s.phase = .running) (hv : s.var = .simplified) :
    readCheck cyc s = some .readUnsupported := by
  simp [readCheck, hp, hv]

/-- Where reads are supported FMR's check is that of ADVANCE and FMW (R146). -/
theorem readCheck_supported {cyc : Word} {s : State} (hv : s.var ≠ .simplified) :
    readCheck cyc s = accessCheck cyc s := by
  simp [readCheck, accessCheck, hv]

/-- But for FMR on SIMP the three accesses make one check (R146). -/
theorem checkOf_access {i : Instr} {cyc : Word} {s : State} (hi : stampOf i = some cyc)
    (hread : s.var ≠ .simplified ∨ ∀ a, i ≠ .fmr cyc a) : checkOf i s = accessCheck cyc s := by
  cases i with
  | select | reset | mix | save | load => cases hi
  | advance | fmw => cases hi; rfl
  | fmr _ a =>
    cases hi
    exact readCheck_supported (hread.resolve_right fun h => h a rfl)

theorem accessCheck_stampOrder {cyc : Word} {s : State} (hp : s.phase = .running) (h : cyc.toNat < s.last.toNat) :
    accessCheck cyc s = some .stampOrder := by
  simp [accessCheck, hp, h]

theorem mixCheck_frameBaseline {f : Word} {s : State} (hp : s.phase = .running) (h : f = 0 ∨ f.toNat < s.last.toNat) :
    mixCheck f s = some .frameBaseline := by
  rw [mixCheck, if_neg (not_not.2 hp), if_pos h]

/-- The serializer's commands are rejected within a frame before the byte string is looked at (R149). -/
theorem checkOf_midFrame {i : Instr} {s : State} (hi : i = .save ∨ ∃ b, i = .load b) (hp : s.phase = .running)
    (hb : s.blen ≠ 0) : checkOf i s = some .midFrame := by
  rcases hi with rfl | ⟨b, rfl⟩
  · simp [checkOf, saveCheck, hp, hb]
  · simp [checkOf, loadCheck, hp, hb]

/-- LOAD between frames rejects a wrong or missing discriminator, and then a wrong length (R153). -/
theorem loadCheck_blobFormat {b : List Byte} {s : State} (hp : s.phase = .running) (h0 : s.blen = 0)
    (h : (hasDisc s.params s.var = true ∧ b.head? ≠ some (disc s.var)) ∨ b.length ≠ layoutLen s.params s.var) :
    loadCheck b s = some .blobFormat := by
  rw [loadCheck, if_neg (not_not.2 hp), if_neg (not_not.2 h0)]
  split
  · rfl
  · exact if_pos (h.resolve_left ‹_›)

/-! ### The commands rejected -/

/-- Settles O23: phase, read restriction, timestamp, in that order. -/
theorem accessesAreRejectedInOrder : Obligations.AccessesAreRejectedInOrder := by
  intro i cyc s hi hs
  refine ⟨fun hp => ?_, ?_, fun hp hread hlt => ?_⟩
  · obtain ⟨hsel, hres⟩ := not_session_of_stamp hi
    exact exec_checked hs (checkOf_not_running hp hsel hres)
  · rintro hp hv ⟨a, rfl⟩
    exact exec_checked hs (readCheck_unsupported hp hv)
  · exact exec_checked hs ((checkOf_access hi hread).trans (accessCheck_stampOrder hp hlt))

/-- Settles O32: phase, then frame length. -/
theorem mixIsRejectedOnItsBaseline : Obligations.MixIsRejectedOnItsBaseline := fun _ _ hs =>
  ⟨fun hp => exec_checked hs (checkOf_not_running hp (by simp) (by simp)),
    fun hp h => exec_checked hs (mixCheck_frameBaseline hp h)⟩

/-- Settles O45: phase, then the empty buffer. -/
theorem serializerOnlyBetweenFrames : Obligations.SerializerOnlyBetweenFrames := by
  intro i s hi hs
  refine ⟨fun hp => exec_checked hs (checkOf_not_running hp ?_ ?_),
    fun hp hb => exec_checked hs (checkOf_midFrame hi hp hb)⟩
  · rcases hi with rfl | ⟨b, rfl⟩ <;> simp
  · rcases hi with rfl | ⟨b, rfl⟩ <;> simp

end Sys2Proof.Machine
end

