-- ==== Sys2Proof/Proofs/FaultsDuring.lean ====
section
/-! PROOFS. The causes raised during execution (R154 group 4), each with the calls made before it: the overflows of an
advance (R150, R151), the pair that MIX cannot amplify (R152), the blob that SAVE cannot use (R153). -/

namespace Sys2Proof.Machine

/-! ### The accesses -/

/-- The three accesses end in the fault of their advance (R98 to R101). -/
theorem bodyOf_access_error {i : Instr} {cyc : Word} {s : State} {e : Cause × State} (hi : stampOf i = some cyc)
    (h : present cyc s = .error e) : bodyOf i s = .error e := by
  cases i with
  | select | reset | mix | save | load => cases hi
  | advance => cases hi; exact h
  | fmw | fmr => cases hi; exact andThen_of_error h

/-- Settles O24: the access passes its check, and its advance overflows before it calls. -/
theorem accessesOverflowBeforeTheCall : Obligations.AccessesOverflowBeforeTheCall := by
  intro i cyc s hi hl hread hle hlt
  have hc : checkOf i s = none := (checkOf_access hi hread).trans (accessCheck_none.2 ⟨hl.2, hle⟩)
  have abort {c : Cause} (h : present cyc s = .error (c, noteStamp cyc s)) :
      ∃ t, exec i s = .next t ∧ AbortedWith c [] s t :=
    exec_aborts hl.1 hc (bodyOf_access_error hi h) (by simp)
  exact ⟨fun hbuf => abort (advance_bufferOverflow (s := noteStamp cyc s) hlt hbuf),
    fun hbuf hcount => abort (advance_counterOverflow (s := noteStamp cyc s) hlt hbuf hcount)⟩

/-! ### MIX -/

/-- Settles O33: MIX has called `PSG.endFrame` when its advance overflows. -/
theorem mixOverflowsBeforeGenerating : Obligations.MixOverflowsBeforeGenerating := by
  intro f s hl hf hle hlt
  have abort {c : Cause} (h : advance f (record (.psgEndFrame f) s) = .error (c, record (.psgEndFrame f) s)) :
      ∃ t, exec (.mix f) s = .next t ∧ AbortedWith c [.psgEndFrame f] s t :=
    exec_aborts hl.1 (mixCheck_none.2 ⟨hl.2, hf, hle⟩) (andThen_of_error h) rfl
  exact ⟨fun hbuf => abort (advance_bufferOverflow (s := record (.psgEndFrame f) s) hlt hbuf),
    fun hbuf hcount => abort (advance_counterOverflow (s := record (.psgEndFrame f) s) hlt hbuf hcount)⟩

/-- Where the pairs read from k on are `before`, then p, then others, the first ones read are `before` and the next
one is p. -/
theorem nextPairs_split {w : WalkInput} {k : Walk} {n : Nat} {before after : List Pair} {p : Pair}
    (h : nextPairs w k n = before ++ p :: after) :
    nextPairs w k before.length = before ∧ readPair w.buf (k.i + before.length) = p := by
  have hn : n = before.length + (after.length + 1) := by
    simpa [nextPairs] using congrArg List.length h
  have hcell : (nextPairs w k n)[before.length]? = some p := by simp [h]
  have htake : (nextPairs w k n).take before.length = before := by simp [h]
  constructor
  · conv_rhs => rw [← htake]
    rw [nextPairs, nextPairs, ← List.map_take, List.take_range, Nat.min_eq_left (by omega)]
  · simpa [nextPairs, hn] using hcell

/-- The walk over a frame of which the pairs `before` can be amplified and the next, which begins below F, cannot
(R152). -/
theorem walk_overflow {f : Word} {s : State} {before after : List Pair} {p : Pair} (hc : Emitted s.carry)
    (hpairs : framePairs f s = before ++ p :: after) (hlt : s.fs.toNat + before.length * cycles s.ratio < f.toNat)
    (hbefore : ∀ q ∈ before, Amplifiable s.cfg.fmpre q) (hp : ¬ Amplifiable s.cfg.fmpre p) :
    walk f (advanced f s) = .error (walkedTo (walkInput f (advanced f s)) (walkStart (advanced f s)) before) := by
  obtain ⟨hread, hnext⟩ := nextPairs_split ((nextPairs_framePairs f s).trans hpairs)
  have hfuel : before.length ≤ before.length * cycles s.ratio := Nat.le_mul_of_pos_right _ (cycles_pos _)
  conv_rhs => rw [← hread]
  refine walkWhile_overflow ?_ ?_ ?_ ?_ ?_
  · simpa [walkStart, State.carry] using hc
  · simp only [advanced_fs]
    omega
  · intro j hj
    have hmul : j * cycles s.ratio ≤ before.length * cycles s.ratio := Nat.mul_le_mul_right _ hj
    simp only [walkStart, walkInput, advanced_fs, advanced_ratio]
    omega
  · rwa [hread, walkInput, advanced_cfg]
  · rwa [hnext, walkInput, advanced_cfg]

/-- Settles O34: `walk_overflow`, after the calls of MIX's first two steps. -/
theorem mixStopsAtTheFirstOverflow : Obligations.MixStopsAtTheFirstOverflow := by
  intro f s before after p hl _ hc hf hle hr hpairs hlt hbefore hp
  have hw := walk_overflow ((emitted_carry_iff s).2 (hc hl)) hpairs hlt hbefore hp
  rw [← walk_mixStart] at hw
  have hbody := mixBody_of_room hr
  rw [← mixStart, walkBody, hw] at hbody
  refine exec_aborts hl.1 (mixCheck_none.2 ⟨hl.2, hf, hle⟩) hbody ?_
  simp [mixStart, advanced_record, walkedTo, walkStart, walkInput, State.carry]

/-! ### LOAD and SAVE -/

/-- A byte string without the discriminator as its first byte is empty or begins with another byte. -/
theorem head?_ne_some_iff {b : List Byte} {x : Byte} :
    b.head? ≠ some x ↔ b = [] ∨ ∃ y rest, b = y :: rest ∧ y ≠ x := by
  cases b <;> simp

theorem saveBody_fm_error {s : State} (h : (fmSaveAnswer s).length ≠ fmLen s.params s.var) :
    saveBody s = .error (.blobFormat, callFmSave s) := if_pos h

theorem saveBody_psg_error {s : State} (hf : (fmSaveAnswer s).length = fmLen s.params s.var)
    (h : (psgSaveAnswer (callFmSave s)).length ≠ s.params.psgLen) :
    saveBody s = .error (.blobFormat, callPsgSave (callFmSave s)) := by
  rw [saveBody, if_neg (not_not.2 hf), if_pos h]

/-- Settles O46: LOAD checks before it calls, SAVE after each answer. -/
theorem blobFormatIsChecked : Obligations.BlobFormatIsChecked := by
  constructor
  · intro b s hl h0 h
    rw [← head?_ne_some_iff] at h
    exact exec_checked hl.1 (loadCheck_blobFormat hl.2 h0 h)
  · rintro s _ _ hl h0 rfl rfl
    have hc : checkOf .save s = none := saveCheck_none.2 ⟨hl.2, h0⟩
    exact ⟨fun h => exec_aborts hl.1 hc (saveBody_fm_error h) rfl,
      fun hf h => exec_aborts hl.1 hc (saveBody_psg_error hf h) (by simp)⟩

end Sys2Proof.Machine
end

