-- ==== Sys2Proof/Proofs/PowerOn.lean ====
section
/-! PROOFS. The block from power-on to PHASE RUNNING (70_reset_and_hazards.md): the values that power-on gives (R170),
the boot sequence (R173), and the registers that power-on leaves UNSPECIFIED, which nothing reads before SELECT or RESET
has written them (R29). -/

namespace Sys2Proof.Machine

/-- Settles O12: the fields of the reset state that R170 names. -/
theorem powerOnState : Obligations.PowerOnState := ⟨rfl, rfl, rfl, rfl⟩

/-! ### The commands before PHASE RUNNING -/

/-- SELECT in PHASE OFF (R89). -/
theorem exec_select_off {s : State} (hs : s.fault = false) (hp : s.phase = .off) :
    exec .select s = .next (selectBackend s) :=
  exec_ok hs (selectCheck_ready (.inl hp)) rfl

/-- Settles O14: SELECT passes in PHASE OFF, and RESET in PHASE SELECTED, where SELECT has left the block. -/
theorem bootReachesRunning : Obligations.BootReachesRunning := by
  intro s hs hp
  have hreset : exec .reset (selectBackend s) = .next (resetScheduler (selectBackend s)) :=
    exec_reset_bound (by simpa using hs) (by simp)
  refine ⟨resetScheduler (selectBackend s), ?_, ⟨hs, rfl⟩, rfl, rfl, rfl, rfl, rfl, rfl, rfl, rfl⟩
  simp only [runCommands, exec_select_off hs hp, hreset]

/-- Before PHASE RUNNING only SELECT in PHASE OFF and RESET in PHASE SELECTED pass their check (R144, R145). -/
theorem session_of_checkOf_none {i : Instr} {s : State} (hp : s.phase ≠ .running) (hc : checkOf i s = none) :
    (i = .select ∧ s.phase = .off) ∨ (i = .reset ∧ s.phase = .selected) := by
  cases hphase : s.phase with
  | off =>
    have hres : i ≠ .reset := by
      rintro rfl
      exact resetCheck_none hc hphase
    exact .inl ⟨by_contra fun hsel => hp (running_of_checkOf_none hc hsel hres), rfl⟩
  | selected => exact .inr ⟨eq_reset_of_checkOf_none hphase hc, rfl⟩
  | running => exact absurd hphase hp

/-! ### Two blocks that differ in the unspecified registers -/

/-- The state s with the values of u in the registers that power-on leaves unspecified: all of R29 but S.VAR, S.PHASE
and the fault registers (R170). -/
def withUnspecified (u s : State) : State :=
  { s with ratio := u.ratio, pt := u.pt, fs := u.fs, cl := u.cl, cr := u.cr, blen := u.blen, buf := u.buf,
           last := u.last }

/-- Before PHASE RUNNING a check looks at S.PHASE alone (R144, R145). -/
theorem checkOf_withUnspecified {s : State} (hp : s.phase ≠ .running) (i : Instr) (u : State) :
    checkOf i (withUnspecified u s) = checkOf i s := by
  cases i with
  | select => simp [checkOf, selectCheck, withUnspecified, hp]
  | reset => rfl
  | advance | fmw | fmr | mix | save | load =>
    rw [checkOf_not_running hp (by simp) (by simp),
      checkOf_not_running (s := withUnspecified u s) hp (by simp) (by simp)]

/-- Two blocks before RESET, alike but for the registers of R29 that are still unspecified: in PHASE SELECTED the ratio
is specified (R89). -/
structure AlikeBeforeReset (s s' : State) : Prop where
  phase : s.phase = .off ∨ (s.phase = .selected ∧ s'.ratio = s.ratio)
  same : s' = withUnspecified s' s

theorem AlikeBeforeReset.not_running {s s' : State} (h : AlikeBeforeReset s s') : s.phase ≠ .running := by
  rcases h.phase with hp | ⟨hp, -⟩ <;> simp [hp]

theorem AlikeBeforeReset.ratio_eq {s s' : State} (h : AlikeBeforeReset s s') (hp : s.phase = .selected) :
    s'.ratio = s.ratio :=
  (h.phase.resolve_left (by simp [hp])).2

/-- Both blocks raise the same fault. -/
theorem AlikeBeforeReset.raiseFault {s s' : State} (h : AlikeBeforeReset s s') (c : Cause) :
    AlikeBeforeReset (raiseFault c s) (raiseFault c s') where
  phase := h.phase
  same := by rw [h.same]; rfl

/-- SELECT writes the variant, the ratio and the phase of either block from what they share (R89). -/
theorem AlikeBeforeReset.selectBackend {s s' : State} (h : AlikeBeforeReset s s') :
    AlikeBeforeReset (selectBackend s) (selectBackend s') where
  phase := .inr ⟨rfl, by rw [h.same]; rfl⟩
  same := by rw [h.same]; rfl

/-- RESET in PHASE SELECTED leaves the two blocks equal but for the buffer's contents (R91). -/
theorem AlikeBeforeReset.resetScheduler {s s' : State} (h : AlikeBeforeReset s s') (hp : s.phase = .selected) :
    resetScheduler s' = { resetScheduler s with buf := s'.buf } := by
  calc Machine.resetScheduler s'
      = Machine.resetScheduler (withUnspecified s' s) := congrArg _ h.same
    _ = { Machine.resetScheduler s with ratio := s'.ratio, buf := s'.buf } := rfl
    _ = { Machine.resetScheduler s with buf := s'.buf } := by rw [h.ratio_eq hp]; rfl

/-- A command leaves two such blocks alike before RESET, or it is the RESET that leaves them equal but for the buffer's
contents. -/
theorem AlikeBeforeReset.exec {s s' : State} (h : AlikeBeforeReset s s') (i : Instr) :
    ∃ t t', exec i s = .next t ∧ exec i s' = .next t' ∧
      (AlikeBeforeReset t t' ∨ t' = { t with buf := t'.buf }) := by
  have hfault : s'.fault = s.fault := by rw [h.same]; rfl
  have hphase : s'.phase = s.phase := by rw [h.same]; rfl
  have hcheck : checkOf i s' = checkOf i s := by rw [h.same, checkOf_withUnspecified h.not_running]
  cases hs : s.fault with
  | true => exact ⟨s, s', exec_of_faulted hs, exec_of_faulted (hfault.trans hs), .inl h⟩
  | false =>
    cases hc : checkOf i s with
    | some c =>
      exact ⟨_, _, exec_checked hs hc, exec_checked (hfault.trans hs) (hcheck.trans hc), .inl (h.raiseFault c)⟩
    | none =>
      rcases session_of_checkOf_none h.not_running hc with ⟨rfl, hp⟩ | ⟨rfl, hp⟩
      · exact ⟨_, _, exec_select_off hs hp, exec_select_off (hfault.trans hs) (hphase.trans hp),
          .inl h.selectBackend⟩
      · exact ⟨_, _, exec_reset_bound hs (by simp [hp]), exec_reset_bound (hfault.trans hs) (by simp [hphase, hp]),
          .inr (h.resetScheduler hp)⟩

/-- Settles O13: what is observed and what is specified is equal in blocks alike before RESET, and in blocks equal but
for the buffer's contents. -/
theorem unspecifiedRegistersAreNotRead : Obligations.UnspecifiedRegistersAreNotRead := by
  intro i s s' hphase hsame
  obtain ⟨t, t', ht, ht', halike⟩ := AlikeBeforeReset.exec ⟨hphase, hsame⟩ i
  refine ⟨t, t', ht, ht', ?_⟩
  rcases halike with h | h
  · have hratio : t.phase = .selected → t'.ratio = t.ratio := h.ratio_eq
    rw [h.same]
    exact ⟨rfl, rfl, rfl, rfl, rfl, hratio, fun hp => absurd hp h.not_running⟩
  · rw [h]
    exact ⟨rfl, rfl, rfl, rfl, rfl, fun _ => rfl, fun _ => rfl⟩

end Sys2Proof.Machine
end

