-- ==== Sys2Proof/Proofs/FrameCapacity.lean ====
section
/-! PROOFS. What a frame needs of the FM Sample Buffer (R10, R176): when MIX ends in BUFFER_OVERFLOW, and the pairs that
the whole frame needs. -/

namespace Sys2Proof.Machine

/-! ### When MIX ends in BUFFER_OVERFLOW -/

/-- No other cause has the code of BUFFER_OVERFLOW (R142). -/
theorem eq_bufferOverflow_of_code {c : Cause} (h : c.code = Cause.code .bufferOverflow) : c = .bufferOverflow := by
  cases c with
  | bufferOverflow => rfl
  | cmdIllegal | notReady | reselect | stampOrder | readUnsupported | frameBaseline | midFrame | counterOverflow
  | arithOverflow | blobFormat => exact absurd h (by decide)

/-- A command whose check passes comes to BUFFER_OVERFLOW exactly when its execution raises it. -/
theorem exec_bufferOverflow_iff {i : Instr} {s t : State} (hs : s.fault = false) (hc : checkOf i s = none)
    (he : exec i s = .next t) :
    (t.fcause = Cause.code .bufferOverflow ∧ t.fault = true) ↔ ∃ u, bodyOf i s = .error (.bufferOverflow, u) := by
  constructor
  · rintro ⟨hcode, ht⟩
    rcases faulted_of_exec hs he ht with ⟨c, hc', -⟩ | ⟨c, u, hb, rfl⟩
    · simp [hc] at hc'
    · obtain rfl := eq_bufferOverflow_of_code hcode
      exact ⟨u, hb⟩
  · rintro ⟨u, hb⟩
    obtain rfl := next_inj.1 ((exec_error hs hc hb).symm.trans he)
    exact ⟨rfl, rfl⟩

/-- An advance raises BUFFER_OVERFLOW exactly when the owed pairs do not fit the buffer (R98, R150). -/
theorem advance_bufferOverflow_iff {t : Word} {s : State} :
    (∃ u, advance t s = .error (.bufferOverflow, u)) ↔
      s.pt.toNat < t.toNat ∧ s.params.bufCap < s.blen + owed t s := by
  constructor
  · rintro ⟨u, h⟩
    rcases advance_cases t s with ⟨-, hok⟩ | ⟨hlt, hbuf, -⟩ | ⟨-, -, -, hcount⟩ | ⟨-, -, -, hok⟩
    · simp [hok] at h
    · exact ⟨hlt, hbuf⟩
    · simp [hcount] at h
    · simp [hok] at h
  · rintro ⟨hlt, hbuf⟩
    exact ⟨s, advance_bufferOverflow hlt hbuf⟩

/-- The walk raises no cause but ARITH_OVERFLOW (R152). -/
theorem walkBody_error {f : Word} {s u : State} {c : Cause} (h : walkBody f s = .error (c, u)) :
    c = .arithOverflow := by
  unfold walkBody at h
  split at h
  · cases h
  · cases h
    rfl

/-- MIX raises BUFFER_OVERFLOW exactly when its advance does (R111, R150). -/
theorem mixBody_bufferOverflow_iff {f : Word} {s : State} :
    (∃ u, mixBody f s = .error (.bufferOverflow, u)) ↔
      s.pt.toNat < f.toNat ∧ s.params.bufCap < s.blen + owed f s := by
  refine Iff.trans ⟨?_, ?_⟩ (advance_bufferOverflow_iff (s := record (.psgEndFrame f) s))
  · rintro ⟨u, h⟩
    rcases andThen_cases h with ⟨v, -, hw⟩ | ⟨e, ha, he⟩
    · cases walkBody_error hw
    · exact ⟨u, ha.trans he.symm⟩
  · rintro ⟨u, ha⟩
    exact ⟨u, andThen_of_error ha⟩

/-! ### The pairs that the frame needs -/

/-- Where the produced span is that of the pairs in the buffer and these are within its bound, the owed pairs do not
fit exactly when the pairs from the frame's start on do not. -/
theorem owed_overflows_iff {f : Word} {s : State} (hspan : Spans s) (hbuf : s.blen ≤ s.params.bufCap) :
    (s.pt.toNat < f.toNat ∧ s.params.bufCap < s.blen + owed f s) ↔
      s.params.bufCap < ceildiv (f.toNat - s.fs.toNat) (cycles s.ratio) := by
  obtain ⟨room, hroom⟩ := Nat.exists_eq_add_of_le hbuf
  have hfits : ceildiv (f.toNat - s.fs.toNat) (cycles s.ratio) ≤ s.params.bufCap ↔ owed f s ≤ room := by
    rw [owed, ceildiv_le_iff (cycles_pos _), ceildiv_le_iff (cycles_pos _), hspan, hroom, Nat.add_mul]
    omega
  have hcovered : f.toNat ≤ s.pt.toNat → owed f s = 0 := owed_covered
  omega

/-- Settles O42: MIX passes its check, and its advance overflows exactly when the frame's pairs do not fit. -/
theorem frameNeedsItsPairsInTheBuffer : Obligations.FrameNeedsItsPairsInTheBuffer := by
  intro f s hl hspan hbuf hf hle
  obtain ⟨t, he⟩ := exec_answers (.mix f) s
  have hc : checkOf (.mix f) s = none := mixCheck_none.2 ⟨hl.2, hf, hle⟩
  refine ⟨t, he, ?_⟩
  calc (t.fcause = Cause.code .bufferOverflow ∧ t.fault = true)
      ↔ ∃ u, mixBody f s = .error (.bufferOverflow, u) := exec_bufferOverflow_iff hl.1 hc he
    _ ↔ s.pt.toNat < f.toNat ∧ s.params.bufCap < s.blen + owed f s := mixBody_bufferOverflow_iff
    _ ↔ s.params.bufCap < ceildiv (f.toNat - s.fs.toNat) (cycles s.ratio) := owed_overflows_iff (hspan hl) (hbuf hl).1

end Sys2Proof.Machine
end
